-- ==== Sys2Proof/Word.lean ====
section
/-! DEFINITION. The word types of the block (00_scope.md rules R7, R8; 10_state.md rules R20, R24, R25). -/

namespace Sys2Proof

/-- A byte is 8 bits (rule R8). A byte string is a `List Byte`, its first byte first in time. -/
abbrev Byte := BitVec 8

/-- A command or a response word (rule R70). -/
abbrev Word32 := BitVec 32

/-- A 64-bit word of the ASCON state, and the width of the byte counters (rules R25, R26). -/
abbrev Word64 := BitVec 64

/-- A 16-byte register: KEY, NONCE, TAG (rules R22, R23, R27). -/
abbrev Block := Vector Byte 16

/-- The ACORN register `S[0..292]`, `S[i]` being bit `i` (rule R24). -/
abbrev AcornReg := BitVec 293

end Sys2Proof
end

