-- ==== Sys2Proof/Config.lean ====
section
/-! DEFINITION. What is fixed when the block is built: the algorithm selector (00_scope.md rules R2, R6; 92_eei_decisions.md D32).
No value of the spec is left free, so there is no uninterpreted constant here (assumption log 25). -/

namespace Sys2Proof

/-- The algorithm selector `ALG`, fixed at construction of a session (10_state.md rule R28). -/
inductive Alg where
  | acorn128
  | ascon128
  deriving DecidableEq, Repr

/-- The numbers the spec gives the selector (rule R28, decision D6). -/
def Alg.code : Alg → BitVec 1
  | .acorn128 => 0
  | .ascon128 => 1

/-- DESIGN CHOICE (assumption log 4): `ALG` is an argument of the model (D32). `State.create` takes it as one; `State.reset`, which
the host needs as ONE state, takes this value, the selector's number 0. Unsafe for a claim about `State.reset` that
depends on the algorithm; no statement of the package does. -/
def Config.alg : Alg := .acorn128

/-- The identity string a model may carry (rule R2, decision D1). No command reads it. -/
def Config.identity : String := "arduinolibs-aead-core"

/-- Key, nonce and tag are 16 bytes (rule R6). -/
def Config.operandBytes : Nat := 16

/-- The command word's length field is 24 bits wide: a command carries fewer than 2^24 operand bytes (rules R6, R71). -/
def Config.operandLimit : Nat := 16777216

end Sys2Proof
end

