-- ==== Sys2Proof/Syntax.lean ====
section
/-! DEFINITION. The eight commands, one constructor per row of spec/opcode_table.json (30_encoding.md rules R71 to R73), and a
command as the host presents it (rule R70). -/

namespace Sys2Proof

/-- A command with its operand bytes. `inp` is the input buffer `IN`, `IN[0]` first; the length field `LEN` is its length
(00_scope.md rule R9, 30_encoding.md rule R77), so a command whose `IN` does not have `LEN` bytes is no term of this type. -/
inductive Instr where
  | reset
  | setkey (inp : List Byte)
  | setnonce (inp : List Byte)
  | absorbAad (inp : List Byte)
  | encrypt (inp : List Byte)
  | decrypt (inp : List Byte)
  | computeTag
  | verifyTag (inp : List Byte)
  deriving DecidableEq, Repr

/-- The three formats of rule R71. -/
inductive Format where
  | n
  | k
  | v
  deriving DecidableEq, Repr

/-- The input buffer `IN` of a command (20_memory.md rule R50). -/
def Instr.operand : Instr → List Byte
  | .reset => []
  | .setkey inp => inp
  | .setnonce inp => inp
  | .absorbAad inp => inp
  | .encrypt inp => inp
  | .decrypt inp => inp
  | .computeTag => []
  | .verifyTag inp => inp

/-- The format column of rule R73. -/
def Instr.format : Instr → Format
  | .reset => .n
  | .setkey _ => .k
  | .setnonce _ => .k
  | .absorbAad _ => .v
  | .encrypt _ => .v
  | .decrypt _ => .v
  | .computeTag => .n
  | .verifyTag _ => .k

/-- What the host presents (rule R70): a 32-bit command word and the input buffer that follows it. -/
structure Command where
  cw : Word32
  inp : List Byte
  deriving DecidableEq, Repr

end Sys2Proof
end

