-- ==== Sys2Proof/WellFormed.lean ====
section
/-! DEFINITION. When a command can be written as a command word: its operand's length fits the 24-bit field `LEN`
(30_encoding.md rules R71, R72). Formats N have no operand, so theirs always fits. -/

namespace Sys2Proof

/-- `LEN` is 0 to 16 777 215 (rule R71). Format K accepts every `LEN`: a wrong one is the command's own error (rule R71). -/
abbrev Instr.WellFormed (i : Instr) : Prop := i.operand.length < Config.operandLimit

end Sys2Proof
end

