-- ==== Sys2Proof/Decode.lean ====
section
/-! DEFINITION. The decoder, total on every command word and every input buffer, and the encoder
(30_encoding.md rules R71 to R73, R76, R77). -/

namespace Sys2Proof

/-- Why a command is not decoded. -/
inductive DecodeError where
  /-- `OP` is 0x08 to 0xFF (rule R76). -/
  | reservedOpcode
  /-- RESET or COMPUTE_TAG with `LEN != 0` (rule R76). -/
  | reservedLength
  /-- `IN` does not have `LEN` bytes: not expressible as a command (rule R77). -/
  | framing
  deriving DecidableEq, Repr

/-- `OP = CW[31:24]` (rule R71). -/
def opField (cw : Word32) : Byte := cw.extractLsb' 24 8

/-- `LEN = CW[23:0]` (rules R71, R72). -/
def lenField (cw : Word32) : BitVec 24 := cw.extractLsb' 0 24

/-- A format N row: `LEN` must be 0 (rule R71). -/
def decodeN (len : BitVec 24) (i : Instr) : Except DecodeError Instr :=
  if len = 0 then .ok i else .error .reservedLength

/-- The opcode map of rule R73 on the two fields of a command word, for an input buffer of `LEN` bytes. -/
def decodeFields (op : Byte) (len : BitVec 24) (inp : List Byte) : Except DecodeError Instr :=
  match op.toNat with
  | 0x00 => decodeN len .reset
  | 0x01 => .ok (.setkey inp)
  | 0x02 => .ok (.setnonce inp)
  | 0x03 => .ok (.absorbAad inp)
  | 0x04 => .ok (.encrypt inp)
  | 0x05 => .ok (.decrypt inp)
  | 0x06 => decodeN len .computeTag
  | 0x07 => .ok (.verifyTag inp)
  | _ => .error .reservedOpcode

/-- The decoder. A reserved word is reported as such whatever follows it; a decodable word's buffer must have `LEN` bytes. -/
def decode (c : Command) : Except DecodeError Instr :=
  match decodeFields (opField c.cw) (lenField c.cw) c.inp with
  | .error e => .error e
  | .ok i => if c.inp.length = (lenField c.cw).toNat then .ok i else .error .framing

/-- The `OP` column of rule R73. -/
def Instr.opcode : Instr → Byte
  | .reset => 0x00
  | .setkey _ => 0x01
  | .setnonce _ => 0x02
  | .absorbAad _ => 0x03
  | .encrypt _ => 0x04
  | .decrypt _ => 0x05
  | .computeTag => 0x06
  | .verifyTag _ => 0x07

/-- The command word `OP || LEN` (rule R71; rule R78: `CW = (OP << 24) | len(operand)`). -/
def Instr.word (i : Instr) : Word32 := i.opcode ++ BitVec.ofNat 24 i.operand.length

/-- The encoder: the command word and the operand bytes that follow it. -/
def encode (i : Instr) : Command := { cw := i.word, inp := i.operand }

/-- The command whose first `nbits` bits are `w` (spec/opcode_table.json's numbering: bit 0 the least significant bit of the
command word) and whose bits above are 0: the `LEN` operand bytes that follow are zeros. -/
def tableCommand (nbits w : Nat) : Command :=
  let cw := BitVec.ofNat 32 (w % 2 ^ nbits)
  { cw := cw, inp := List.replicate (lenField cw).toNat 0 }

/-- What the decoder reads from a table word. The buffer has `LEN` bytes by construction, so the length check of `decode` is
not run again (`decodeTableWord_eq` in Laws/Decode.lean says the two agree). -/
def decodeTableWord (nbits w : Nat) : Option Instr :=
  let c := tableCommand nbits w
  (decodeFields (opField c.cw) (lenField c.cw) c.inp).toOption

end Sys2Proof
end

