-- ==== Sys2Proof/Machine/State.lean ====
section
/-! DEFINITION. The state: one session exactly as 10_state.md rule R20 lists it, and the transaction interface of
30_encoding.md rule R70 (the commands the host has issued and the responses it has received). -/

namespace Sys2Proof.Machine

/-- The state-machine state `PHASE` (10_state.md rule R21), in the required order. -/
inductive Phase where
  | fresh
  | keyAndNonceSet
  | absorbingAad
  | processingPayload
  | finalized
  deriving DecidableEq, Repr

/-- The ASCON-128 state: the rate word `x0` and the capacity words `x1` to `x4` (10_state.md rule R25). -/
structure AsconReg where
  x0 : Word64
  x1 : Word64
  x2 : Word64
  x3 : Word64
  x4 : Word64
  deriving DecidableEq, Repr

/-- The engine register. "Of `S` and `X` only the one belonging to `ALG` exists" (10_state.md rule R28): the constructor is
`ALG`, its argument the register that exists. -/
inductive Engine where
  /-- `ALG = ACORN128`: the register `S`. -/
  | acorn (s : AcornReg)
  /-- `ALG = ASCON128`: the register `X`. -/
  | ascon (x : AsconReg)
  deriving DecidableEq, Repr

/-- The algorithm selector of an engine (10_state.md rule R28). -/
def Engine.alg : Engine → Alg
  | .acorn _ => .acorn128
  | .ascon _ => .ascon128

/-- The engine of an algorithm, its register all zero (10_state.md rule R34). -/
def Engine.zero : Alg → Engine
  | .acorn128 => .acorn 0
  | .ascon128 => .ascon ⟨0, 0, 0, 0, 0⟩

/-- The sixteen zero bytes. -/
def Block.zero : Block := Vector.replicate 16 0

/-- The complete state of a session, field for field 10_state.md rule R20. -/
structure Session where
  /-- `ALG` (the constructor) with `S` or `X` (its argument). -/
  engine : Engine
  /-- `PHASE` -/
  phase : Phase
  /-- `KEYSET` -/
  keySet : Bool
  /-- `NONCESET` -/
  nonceSet : Bool
  /-- `KEY` -/
  key : Block
  /-- `NONCE` -/
  nonce : Block
  /-- `AADLEN`, modulo 2^64 -/
  aadLen : Word64
  /-- `PAYLEN`, modulo 2^64 -/
  payLen : Word64
  /-- `TAG` -/
  tag : Block
  deriving DecidableEq, Repr

/-- `ALG` of a session. -/
def Session.alg (x : Session) : Alg := x.engine.alg

/-- A session at its creation: exactly what RESET leaves, with `ALG` as given (70_reset_and_hazards.md rule R210). -/
def Session.created (a : Alg) : Session where
  engine := .zero a
  phase := .fresh
  keySet := false
  nonceSet := false
  key := Block.zero
  nonce := Block.zero
  aadLen := 0
  payLen := 0
  tag := Block.zero

/-- The status of a response (30_encoding.md rule R75). No other status is ever produced. -/
inductive Status where
  | ok
  | invalidLength
  | invalidState
  | tagMismatch
  deriving DecidableEq, Repr

/-- The three error kinds (60_exceptions.md rule R190). -/
inductive ErrorKind where
  | invalidLength
  | invalidState
  | tagMismatch
  deriving DecidableEq, Repr

/-- A response: `STATUS` and the output buffer `OUT`. The response word `RW` is `Response.rw` (30_encoding.md rule R74). -/
structure Response where
  status : Status
  out : List Byte
  deriving DecidableEq, Repr

/-- The machine: the session, the commands the host has issued and the machine has not executed yet (oldest first,
assumption log 1), and the responses returned so far (oldest first, assumption log 2). -/
structure State where
  session : Session
  pending : List Command
  responses : List Response
  deriving DecidableEq, Repr

/-- A machine whose session has just been created with the selector `a`, before any command. -/
def State.create (a : Alg) : State where
  session := Session.created a
  pending := []
  responses := []

/-- The machine right after reset: the creation state (70_reset_and_hazards.md rule R210), with the selector of Config. -/
def State.reset : State := State.create Config.alg

/-- The reasons the machine stops with a fault: none. Every decodable command has exactly one outcome and the three error kinds
are answers of a completed command (60_exceptions.md rule R197), so nothing raises a fault and the type has no
constructor. Safe: it forbids nothing the spec describes. -/
inductive Fault where
  deriving DecidableEq, Repr

/-- The reasons a command is given no meaning. -/
inductive Refusal where
  /-- Raised by an arm of `exec` whose instruction is not modelled yet; no arm does. Safe: the model stops. -/
  | notModelled (mnemonic : String)
  /-- Raised by `step` for `OP` 0x08 to 0xFF: "a model refuses it" (30_encoding.md rule R76, decision D5). Safe. -/
  | reservedOpcode
  /-- Raised by `step` for RESET or COMPUTE_TAG with `LEN != 0` (30_encoding.md rule R76, decision D5). Safe. -/
  | reservedLength
  /-- Raised by `step` for a command whose `IN` does not have `LEN` bytes, which "cannot be expressed"
  (30_encoding.md rule R77): an error of the carrier, outside the spec. Safe. -/
  | framing
  deriving DecidableEq, Repr

end Sys2Proof.Machine
end

