-- ==== Sys2Proof/Machine/Ops.lean ====
section
/-! DEFINITION. The shared operations: bits, bytes and words (20_memory.md rules R53, R54), the buffers (rule R50), the
response (30_encoding.md rules R74, R75), and taking an error (60_exceptions.md rule R195). -/

namespace Sys2Proof.Machine

/-! ## Loops and bits (00_scope.md rules R7, R9) -/

/-- `for i in 0 .. n-1: a <- f i a` (rule R9). -/
def loop {α : Type} (n : Nat) (f : Nat → α → α) (a : α) : α :=
  match n with
  | 0 => a
  | k + 1 => f k (loop k f a)

/-- `v[i] <- b` for one bit (rule R9). -/
def setBit {w : Nat} (v : BitVec w) (i : Nat) (b : Bool) : BitVec w :=
  if b then v ||| BitVec.twoPow w i else v &&& ~~~(BitVec.twoPow w i)

/-- `ROR64(v, n)`, used only with `1 <= n <= 63` (rule R7). -/
def ror64 (v : Word64) (n : Nat) : Word64 := (v >>> n) ||| (v <<< (64 - n))

/-! ## Byte strings (00_scope.md rule R8, 20_memory.md rules R50, R53, R54) -/

/-- `MemRead(a, n)`: the `n` bytes at offsets `a .. a+n-1` of an input buffer (rule R9). -/
def memRead (inp : List Byte) (a n : Nat) : List Byte := (inp.drop a).take n

/-- A 16-byte register loaded from 16 bytes, the first byte of the list as byte 0. Every use has at least 16 bytes. -/
def blockOfList (l : List Byte) : Block := Vector.ofFn fun i => l.getD i.val 0

/-- Byte `i` of a 16-byte register, `0 <= i <= 15` (rule R9). -/
def blockByte (b : Block) (i : Nat) : Byte := b.toList.getD i 0

/-- Bit `8i+j` of a 16-byte register, which is bit `j` of byte `i`: least significant bit first (rule R53). -/
def blockBit (b : Block) (i : Nat) : Bool := (blockByte b (i / 8)).getLsbD (i % 8)

/-- The 16 bytes of 128 bits, bit `8i+j` becoming bit `j` of byte `i` (rule R53). -/
def blockOfBits (v : BitVec 128) : Block := Vector.ofFn fun i => v.extractLsb' (8 * i.val) 8

/-- `BE64(B[a..a+7])` of a 16-byte register: byte `a` is bits 63 to 56 (rule R54). -/
def be64 (b : Block) (a : Nat) : Word64 :=
  blockByte b a ++ blockByte b (a + 1) ++ blockByte b (a + 2) ++ blockByte b (a + 3) ++
    blockByte b (a + 4) ++ blockByte b (a + 5) ++ blockByte b (a + 6) ++ blockByte b (a + 7)

/-- `SH(j) = 56 - 8j`: the low bit of byte `j` of a block inside a word (42_ascon128.md section 2). -/
def byteShift (j : Nat) : Nat := 56 - 8 * j

/-- `w[SH(j)+7 : SH(j)]`: byte `j` of a word (rule R54). -/
def wordByte (w : Word64) (j : Nat) : Byte := w.extractLsb' (byteShift j) 8

/-- `zext_64(b) << SH(j)`: the byte `b` in place `j` of a word (rule R54). -/
def byteAt (b : Byte) (j : Nat) : Word64 := b.setWidth 64 <<< byteShift j

/-- `w[SH(j)+7 : SH(j)] <- b`. -/
def setWordByte (w : Word64) (j : Nat) (b : Byte) : Word64 :=
  (w &&& ~~~(byteAt 0xFF j)) ||| byteAt b j

/-- `BYTES64(w)`: the 8 bytes `w[63:56], ..., w[7:0]` (rule R54). -/
def bytes64 (w : Word64) : List Byte := (List.range 8).map (wordByte w)

/-! ## The response (30_encoding.md rules R74, R75) -/

/-- The status codes of rule R75 (decision D4). -/
def Status.code : Status → Byte
  | .ok => 0x00
  | .invalidLength => 0x01
  | .invalidState => 0x02
  | .tagMismatch => 0x03

/-- The status that reports an error kind (60_exceptions.md rule R190). -/
def ErrorKind.status : ErrorKind → Status
  | .invalidLength => .invalidLength
  | .invalidState => .invalidState
  | .tagMismatch => .tagMismatch

/-- `RW = STATUS || RLEN`, `RLEN` the byte count of `OUT` (rule R74). -/
def Response.rw (r : Response) : Word32 := r.status.code ++ BitVec.ofNat 24 r.out.length

/-- Return a response to the host: it follows every earlier one (20_memory.md rule R59). -/
def State.respond (s : State) (r : Response) : State := { s with responses := s.responses ++ [r] }

/-- Replace the session's state: the side effect of a command (20_memory.md rule R58). -/
def State.withSession (s : State) (x : Session) : State := { s with session := x }

/-- TAKING AN ERROR, `raise E` (60_exceptions.md rule R195): the command ends, the response is the error's code with no output
byte, and no state of the session is written. Recovery needs no operation of its own: there is no return from an
error, the host issues its next command (rule R196). -/
def raise (e : ErrorKind) (s : State) : Host.Outcome State Fault Refusal :=
  .next (s.respond { status := e.status, out := [] })

/-- `respond OK` with the output bytes `out`, the session having become `x` (40_controller.md rules R93 to R100). -/
def finish (x : Session) (out : List Byte) (s : State) : Host.Outcome State Fault Refusal :=
  .next ((s.withSession x).respond { status := .ok, out := out })

/-! ## The numeric encoding of the phases (10_state.md rule R21, decision D7) -/

/-- `Fresh = 0` to `Finalized = 4`; 5, 6 and 7 never occur (rule R21). -/
def Phase.code : Phase → BitVec 3
  | .fresh => 0
  | .keyAndNonceSet => 1
  | .absorbingAad => 2
  | .processingPayload => 3
  | .finalized => 4

end Sys2Proof.Machine
end

