-- ==== Sys2Proof/Machine/Operands.lean ====
section
/-! DEFINITION. The operand forms of the commands (30_encoding.md rules R71, R72; 20_memory.md rule R57). -/

namespace Sys2Proof.Machine

/-- The length check of format K, `LEN = 16` (40_controller.md rule R90). `LEN` is the length of `IN` (30_encoding.md rule R77). -/
def lengthOk (inp : List Byte) : Bool := inp.length == Config.operandBytes

/-- The 16-byte operand of format K, `MemRead(0, 16)`; read only after the length check has passed (rule R57). -/
def operand16 (inp : List Byte) : Block := blockOfList (memRead inp 0 16)

/-- VERIFY_TAG's comparison (40_controller.md rule R100): `acc <- acc | (TAG[i] ^ IN[i])` over all sixteen bytes, with no early
exit. -/
def tagDifference (tag : Block) (inp : List Byte) : Byte :=
  loop 16 (fun i acc => acc ||| (blockByte tag i ^^^ inp.getD i 0)) 0

end Sys2Proof.Machine
end

