-- ==== Sys2Proof/Machine/Acorn.lean ====
section
/-! DEFINITION. The ACORN-128 engine, bit-serial (41_acorn128.md rules R130 to R142; representation rule R145). The spec marks every
constant here as general knowledge of ACORN-128 version 3 (assumption log 19). -/

namespace Sys2Proof.Machine

/-- `maj(x, y, z)` (rule R130). -/
def maj (x y z : Bool) : Bool := (x && y) ^^ (x && z) ^^ (y && z)

/-- `ch(x, y, z)`: if `x` then `y` else `z` (rule R130). -/
def ch (x y z : Bool) : Bool := (x && y) ^^ (!x && z)

/-- The linear update of `S[289]` (rule R132). -/
def acornT289 (s : AcornReg) : Bool := s.getLsbD 289 ^^ s.getLsbD 235 ^^ s.getLsbD 230
/-- The linear update of `S[230]` (rule R132). -/
def acornT230 (s : AcornReg) : Bool := s.getLsbD 230 ^^ s.getLsbD 196 ^^ s.getLsbD 193
/-- The linear update of `S[193]` (rule R132). -/
def acornT193 (s : AcornReg) : Bool := s.getLsbD 193 ^^ s.getLsbD 160 ^^ s.getLsbD 154
/-- The linear update of `S[154]` (rule R132). -/
def acornT154 (s : AcornReg) : Bool := s.getLsbD 154 ^^ s.getLsbD 111 ^^ s.getLsbD 107
/-- The linear update of `S[107]` (rule R132). -/
def acornT107 (s : AcornReg) : Bool := s.getLsbD 107 ^^ s.getLsbD 66 ^^ s.getLsbD 61
/-- The linear update of `S[61]` (rule R132). -/
def acornT61 (s : AcornReg) : Bool := s.getLsbD 61 ^^ s.getLsbD 23 ^^ s.getLsbD 0

/-- `AcornKs()`: the keystream bit of the coming step (rules R132, R142). -/
def acornKs (s : AcornReg) : Bool :=
  s.getLsbD 12 ^^ acornT154 s ^^ maj (s.getLsbD 235) (acornT61 s) (acornT193 s) ^^
    ch (acornT230 s) (s.getLsbD 111) (s.getLsbD 66)

/-- The feedback bit `f` of a step with the control bits `ca` and `cb` (rules R131, R132). -/
def acornFeedback (s : AcornReg) (ca cb : Bool) : Bool :=
  s.getLsbD 0 ^^ !(acornT107 s) ^^ maj (s.getLsbD 244) (s.getLsbD 23) (s.getLsbD 160) ^^
    (ca && s.getLsbD 196) ^^ (cb && acornKs s)

/-- The register after the six replacements and before the shift: each replacement is `S'[k-1] <- t_k` seen from its old place
`k`. All right-hand sides read the state before the step (rule R132). -/
def acornLinear (s : AcornReg) : AcornReg :=
  setBit (setBit (setBit (setBit (setBit (setBit s 289 (acornT289 s)) 230 (acornT230 s)) 193 (acornT193 s))
    154 (acornT154 s)) 107 (acornT107 s)) 61 (acornT61 s)

/-- `AcornStep(m, ca, cb)`: the new register and the keystream bit (rule R132). -/
def acornStep (m ca cb : Bool) (s : AcornReg) : AcornReg × Bool :=
  (setBit (acornLinear s >>> 1) 292 (acornFeedback s ca cb ^^ m), acornKs s)

/-- The register part of a step whose keystream bit is discarded. -/
def acornNext (m ca cb : Bool) (s : AcornReg) : AcornReg := (acornStep m ca cb s).1

/-- The input bit of initialisation step `i` (rule R135): the key, the nonce, then the key repeated with the first of those
bits complemented. -/
def acornInitBit (key nonce : Block) (i : Nat) : Bool :=
  if i < 128 then blockBit key i
  else if i < 256 then blockBit nonce (i - 128)
  else if i = 256 then !(blockBit key 0)
  else blockBit key (i % 128)

/-- `EngInit()` (rule R135): 1792 steps from the zero register. It does not read `S`. -/
def acornInit (key nonce : Block) : AcornReg :=
  loop 1792 (fun i s => acornNext (acornInitBit key nonce i) true true s) 0

/-- `EngAad(b)` (rule R136): bit 0 of the byte first. -/
def acornAad (b : Byte) (s : AcornReg) : AcornReg :=
  loop 8 (fun j s => acornNext (b.getLsbD j) true true s) s

/-- `AcornPad(cb)`, the 256-step separator (rule R137). -/
def acornPad (cb : Bool) (s : AcornReg) : AcornReg :=
  loop 256 (fun i s => acornNext (i == 0) (decide (i < 128)) cb s) s

/-- `EngCloseAad()` (rule R140). -/
def acornCloseAad (s : AcornReg) : AcornReg := acornPad true s

/-- One bit of `EngEnc` (rule R138): the step absorbs the plaintext bit and returns the keystream bit. -/
def acornEncBit (p : Byte) (j : Nat) (a : AcornReg × Byte) : AcornReg × Byte :=
  let r := acornStep (p.getLsbD j) true false a.1
  (r.1, setBit a.2 j (p.getLsbD j ^^ r.2))

/-- `EngEnc(p)` (rule R138). -/
def acornEnc (p : Byte) (s : AcornReg) : AcornReg × Byte := loop 8 (acornEncBit p) (s, 0)

/-- One bit of `EngDec` (rule R139): the plaintext bit is formed first, and it is what the step absorbs. -/
def acornDecBit (c : Byte) (j : Nat) (a : AcornReg × Byte) : AcornReg × Byte :=
  let p := c.getLsbD j ^^ acornKs a.1
  (acornNext p true false a.1, setBit a.2 j p)

/-- `EngDec(c)` (rule R139). -/
def acornDec (c : Byte) (s : AcornReg) : AcornReg × Byte := loop 8 (acornDecBit c) (s, 0)

/-- One finalisation step (rule R141): the keystream of steps 640 to 767 is the tag. -/
def acornFinalBit (i : Nat) (a : AcornReg × BitVec 128) : AcornReg × BitVec 128 :=
  let r := acornStep false true true a.1
  (r.1, if 640 ≤ i then setBit a.2 (i - 640) r.2 else a.2)

/-- `EngFinal()` (rule R141): the separator, 768 blank steps, the 16 tag bytes. -/
def acornFinal (s : AcornReg) : AcornReg × Block :=
  let r := loop 768 acornFinalBit (acornPad false s, 0)
  (r.1, blockOfBits r.2)

end Sys2Proof.Machine
end

