-- ==== Sys2Proof/Machine/Ascon.lean ====
section
/-! DEFINITION. The ASCON-128 engine, byte-serial (42_ascon128.md rules R160 to R171). The spec marks the constants here as general
knowledge of ASCON-128 version 1.2 (assumption log 20). -/

namespace Sys2Proof.Machine

/-- The initial constant (rule R160). -/
def asconIv : Word64 := 0x80400C0600000000

/-- The twelve round constants `RC[0..11]` (rule R161). -/
def asconRoundConstants : List Byte :=
  [0xF0, 0xE1, 0xD2, 0xC3, 0xB4, 0xA5, 0x96, 0x87, 0x78, 0x69, 0x5A, 0x4B]

/-- First layer of a round: the constant into the low byte of word 2 (rule R162). -/
def asconAddConstant (c : Byte) (x : AsconReg) : AsconReg := { x with x2 := x.x2 ^^^ c.setWidth 64 }

/-- Second layer: the substitution, line by line (rule R163). -/
def asconSubstitute (x : AsconReg) : AsconReg :=
  let a0 := x.x0 ^^^ x.x4
  let a1 := x.x1
  let a2 := x.x2 ^^^ x.x1
  let a3 := x.x3
  let a4 := x.x4 ^^^ x.x3
  let t0 := ~~~a0 &&& a1
  let t1 := ~~~a1 &&& a2
  let t2 := ~~~a2 &&& a3
  let t3 := ~~~a3 &&& a4
  let t4 := ~~~a4 &&& a0
  let b0 := a0 ^^^ t1
  let b1 := a1 ^^^ t2
  let b2 := a2 ^^^ t3
  let b3 := a3 ^^^ t4
  let b4 := a4 ^^^ t0
  { x0 := b0 ^^^ b4, x1 := b1 ^^^ b0, x2 := ~~~b2, x3 := b3 ^^^ b2, x4 := b4 }

/-- `w ^ ROR64(w, a) ^ ROR64(w, b)`: one word of the linear layer (rule R164). -/
def asconMix (a b : Nat) (w : Word64) : Word64 := w ^^^ ror64 w a ^^^ ror64 w b

/-- Third layer: the linear diffusion (rule R164). -/
def asconDiffuse (x : AsconReg) : AsconReg where
  x0 := asconMix 19 28 x.x0
  x1 := asconMix 61 39 x.x1
  x2 := asconMix 1 6 x.x2
  x3 := asconMix 10 17 x.x3
  x4 := asconMix 7 41 x.x4

/-- `AsconRound(c)` (rules R162 to R164). -/
def asconRound (c : Byte) (x : AsconReg) : AsconReg := asconDiffuse (asconSubstitute (asconAddConstant c x))

/-- `P(n)` for `n = 12` or `n = 6`: `n` rounds with the LAST `n` round constants (rule R165). -/
def asconP (n : Nat) (x : AsconReg) : AsconReg :=
  (asconRoundConstants.drop (12 - n)).foldl (fun x c => asconRound c x) x

/-- `EngInit()` (rule R166). It does not read `X`. -/
def asconInit (key nonce : Block) : AsconReg :=
  let x := asconP 12 { x0 := asconIv, x1 := be64 key 0, x2 := be64 key 8, x3 := be64 nonce 0, x4 := be64 nonce 8 }
  { x with x3 := x.x3 ^^^ be64 key 0, x4 := x.x4 ^^^ be64 key 8 }

/-- The byte position inside the current block: a counter `mod 8` (10_state.md rule R26). -/
def blockPos (n : Word64) : Nat := n.toNat % 8

/-- `if j = 7: P(6)`: the permutation after a full block (rules R167 to R169). -/
def asconBlockEnd (j : Nat) (x : AsconReg) : AsconReg := if j = 7 then asconP 6 x else x

/-- `EngAad(b)` (rule R167). -/
def asconAad (aadLen : Word64) (b : Byte) (x : AsconReg) : AsconReg :=
  let j := blockPos aadLen
  asconBlockEnd j { x with x0 := x.x0 ^^^ byteAt b j }

/-- `EngCloseAad()` (rule R171): the padding block unless the associated data is empty, then the domain separation, always. -/
def asconCloseAad (aadLen : Word64) (x : AsconReg) : AsconReg :=
  let y := if aadLen = 0 then x else asconP 6 { x with x0 := x.x0 ^^^ byteAt 0x80 (blockPos aadLen) }
  { y with x4 := y.x4 ^^^ 1 }

/-- `EngEnc(p)` (rule R168). -/
def asconEnc (payLen : Word64) (p : Byte) (x : AsconReg) : AsconReg × Byte :=
  let j := blockPos payLen
  let y := { x with x0 := x.x0 ^^^ byteAt p j }
  (asconBlockEnd j y, wordByte y.x0 j)

/-- `EngDec(c)` (rule R169): the rate byte becomes the ciphertext byte. -/
def asconDec (payLen : Word64) (c : Byte) (x : AsconReg) : AsconReg × Byte :=
  let j := blockPos payLen
  (asconBlockEnd j { x with x0 := setWordByte x.x0 j c }, wordByte x.x0 j ^^^ c)

/-- `EngFinal()` (rule R170). -/
def asconFinal (key : Block) (payLen : Word64) (x : AsconReg) : AsconReg × Block :=
  let y := asconP 12
    { x with
      x0 := x.x0 ^^^ byteAt 0x80 (blockPos payLen)
      x1 := x.x1 ^^^ be64 key 0
      x2 := x.x2 ^^^ be64 key 8 }
  (y, blockOfList (bytes64 (y.x3 ^^^ be64 key 0) ++ bytes64 (y.x4 ^^^ be64 key 8)))

end Sys2Proof.Machine
end

