-- ==== Sys2Proof/Machine/EngineProcs.lean ====
section
/-! DEFINITION. The six engine procedures: "a call dispatches on `ALG`" (00_scope.md rule R9). They are total: none can fail
(60_exceptions.md rule R197). -/

namespace Sys2Proof.Machine

/-- RESET's effect on the engine: the register that exists becomes zero, `ALG` is kept (40_controller.md rule R93). -/
def engClear : Engine → Engine
  | .acorn _ => .acorn 0
  | .ascon _ => .ascon { x0 := 0, x1 := 0, x2 := 0, x3 := 0, x4 := 0 }

/-- `EngInit()` (rules R135, R166). -/
def engInit (key nonce : Block) : Engine → Engine
  | .acorn _ => .acorn (acornInit key nonce)
  | .ascon _ => .ascon (asconInit key nonce)

/-- `EngAad(b)`; `aadLen` is the number of bytes absorbed before this one (rules R96, R136, R167). -/
def engAad (aadLen : Word64) (b : Byte) : Engine → Engine
  | .acorn s => .acorn (acornAad b s)
  | .ascon x => .ascon (asconAad aadLen b x)

/-- `EngCloseAad()` (rules R140, R171). -/
def engCloseAad (aadLen : Word64) : Engine → Engine
  | .acorn s => .acorn (acornCloseAad s)
  | .ascon x => .ascon (asconCloseAad aadLen x)

/-- `EngEnc(p)`: the new engine and the ciphertext byte (rules R138, R168). -/
def engEnc (payLen : Word64) (p : Byte) : Engine → Engine × Byte
  | .acorn s => (.acorn (acornEnc p s).1, (acornEnc p s).2)
  | .ascon x => (.ascon (asconEnc payLen p x).1, (asconEnc payLen p x).2)

/-- `EngDec(c)`: the new engine and the plaintext byte (rules R139, R169). -/
def engDec (payLen : Word64) (c : Byte) : Engine → Engine × Byte
  | .acorn s => (.acorn (acornDec c s).1, (acornDec c s).2)
  | .ascon x => (.ascon (asconDec payLen c x).1, (asconDec payLen c x).2)

/-- `EngFinal()`: the new engine and the tag (rules R141, R170). -/
def engFinal (key : Block) (payLen : Word64) : Engine → Engine × Block
  | .acorn s => (.acorn (acornFinal s).1, (acornFinal s).2)
  | .ascon x => (.ascon (asconFinal key payLen x).1, (asconFinal key payLen x).2)

end Sys2Proof.Machine
end

