-- ==== Sys2Proof/Machine/Flags.lean ====
section
/-! DEFINITION. The flags and the phase: the accepted sets of the phase check (40_controller.md rules R90, R91) and the two
flags KEYSET and NONCESET with the transition they decide (10_state.md rule R31; 40_controller.md rules R94, R95). -/

namespace Sys2Proof.Machine

/-- SETKEY and SETNONCE are accepted in `Fresh` and `KeyAndNonceSet` (rules R94, R95). -/
def Phase.acceptsKeyNonce : Phase → Bool
  | .fresh => true
  | .keyAndNonceSet => true
  | .absorbingAad => false
  | .processingPayload => false
  | .finalized => false

/-- ABSORB_AAD is accepted in `KeyAndNonceSet` and `AbsorbingAAD` (rule R96). -/
def Phase.acceptsAad : Phase → Bool
  | .fresh => false
  | .keyAndNonceSet => true
  | .absorbingAad => true
  | .processingPayload => false
  | .finalized => false

/-- ENCRYPT, DECRYPT and COMPUTE_TAG are rejected in `Fresh` and `Finalized` (rules R97 to R99). -/
def Phase.acceptsPayload : Phase → Bool
  | .fresh => false
  | .keyAndNonceSet => true
  | .absorbingAad => true
  | .processingPayload => true
  | .finalized => false

/-- VERIFY_TAG is accepted in `Finalized` only (rule R100). -/
def Phase.acceptsVerify : Phase → Bool
  | .fresh => false
  | .keyAndNonceSet => false
  | .absorbingAad => false
  | .processingPayload => false
  | .finalized => true

/-- SETKEY's effect: `KEY`, `KEYSET <- 1`, and `if NONCESET = 1: PHASE <- KeyAndNonceSet` (rule R94). -/
def Session.loadKey (x : Session) (k : Block) : Session :=
  { x with key := k, keySet := true, phase := if x.nonceSet then .keyAndNonceSet else x.phase }

/-- SETNONCE's effect: `NONCE`, `NONCESET <- 1`, and `if KEYSET = 1: PHASE <- KeyAndNonceSet` (rule R95). -/
def Session.loadNonce (x : Session) (n : Block) : Session :=
  { x with nonce := n, nonceSet := true, phase := if x.keySet then .keyAndNonceSet else x.phase }

end Sys2Proof.Machine
end

