-- ==== Sys2Proof/Machine/Phases.lean ====
section
/-! DEFINITION. The two implicit transitions `Start()` and `CloseAad()` (40_controller.md rule R92) and the byte loops of the data
commands (rules R96 to R98; 20_memory.md rule R56). -/

namespace Sys2Proof.Machine

/-- `Start()`: begin the operation, running the engine's initialisation once (rule R92). -/
def Session.start (x : Session) : Session :=
  if x.phase = .keyAndNonceSet then
    { x with engine := engInit x.key x.nonce x.engine, aadLen := 0, payLen := 0, phase := .absorbingAad }
  else x

/-- `CloseAad()`: close the associated-data stream once (rule R92). -/
def Session.closeAad (x : Session) : Session :=
  if x.phase = .absorbingAad then
    { x with engine := engCloseAad x.aadLen x.engine, phase := .processingPayload }
  else x

/-- `EngAad(IN[i]) ; AADLEN <- AADLEN + 1` (rule R96). -/
def Session.absorbByte (x : Session) (b : Byte) : Session :=
  { x with engine := engAad x.aadLen b x.engine, aadLen := x.aadLen + 1 }

/-- The loop of ABSORB_AAD: one byte at a time, `IN[0]` first (rules R56, R96). -/
def Session.absorbBytes (x : Session) (inp : List Byte) : Session := inp.foldl Session.absorbByte x

/-- `OUT[i] <- EngEnc(IN[i]) ; PAYLEN <- PAYLEN + 1` (rule R97). -/
def Session.encryptByte (x : Session) (b : Byte) : Session × Byte :=
  let r := engEnc x.payLen b x.engine
  ({ x with engine := r.1, payLen := x.payLen + 1 }, r.2)

/-- `OUT[i] <- EngDec(IN[i]) ; PAYLEN <- PAYLEN + 1` (rule R98). -/
def Session.decryptByte (x : Session) (b : Byte) : Session × Byte :=
  let r := engDec x.payLen b x.engine
  ({ x with engine := r.1, payLen := x.payLen + 1 }, r.2)

/-- The loop of a payload command: `f` on each byte of `IN`, `IN[0]` first, the bytes it returns being `OUT` in the same order
(rules R56, R97, R98). -/
def payloadBytes (f : Session → Byte → Session × Byte) (x : Session) : List Byte → Session × List Byte
  | [] => (x, [])
  | b :: bs =>
    let r := f x b
    let rest := payloadBytes f r.1 bs
    (rest.1, r.2 :: rest.2)

/-- COMPUTE_TAG's effect on a session whose associated data is closed: `TAG <- EngFinal() ; PHASE <- Finalized` (rule R99). -/
def Session.finalize (x : Session) : Session :=
  let r := engFinal x.key x.payLen x.engine
  { x with engine := r.1, tag := r.2, phase := .finalized }

end Sys2Proof.Machine
end

