-- ==== Sys2Proof/Machine/Control.lean ====
section
/-! DEFINITION. The meanings of RESET, SETKEY and SETNONCE (40_controller.md rules R93 to R95). -/

namespace Sys2Proof.Machine

/-- RESET's effect on the session (rule R93): everything but `ALG`. -/
def Session.reset (x : Session) : Session :=
  { x with
    phase := .fresh, keySet := false, nonceSet := false
    key := Block.zero, nonce := Block.zero, tag := Block.zero
    aadLen := 0, payLen := 0
    engine := engClear x.engine }

/-- RESET (rule R93): always succeeds. -/
def execReset (s : State) : Host.Outcome State Fault Refusal := finish s.session.reset [] s

/-- SETKEY (rule R94). -/
def execSetkey (inp : List Byte) (s : State) : Host.Outcome State Fault Refusal :=
  if !lengthOk inp then raise .invalidLength s
  else if !s.session.phase.acceptsKeyNonce then raise .invalidState s
  else finish (s.session.loadKey (operand16 inp)) [] s

/-- SETNONCE (rule R95). -/
def execSetnonce (inp : List Byte) (s : State) : Host.Outcome State Fault Refusal :=
  if !lengthOk inp then raise .invalidLength s
  else if !s.session.phase.acceptsKeyNonce then raise .invalidState s
  else finish (s.session.loadNonce (operand16 inp)) [] s

end Sys2Proof.Machine
end

