-- ==== Sys2Proof/Machine/Data.lean ====
section
/-! DEFINITION. The meanings of ABSORB_AAD, ENCRYPT and DECRYPT (40_controller.md rules R96 to R98). -/

namespace Sys2Proof.Machine

/-- ABSORB_AAD (rule R96). -/
def execAbsorbAad (inp : List Byte) (s : State) : Host.Outcome State Fault Refusal :=
  if !s.session.phase.acceptsAad then raise .invalidState s
  else finish (s.session.start.absorbBytes inp) [] s

/-- ENCRYPT (rule R97). -/
def execEncrypt (inp : List Byte) (s : State) : Host.Outcome State Fault Refusal :=
  if !s.session.phase.acceptsPayload then raise .invalidState s
  else
    let r := payloadBytes Session.encryptByte s.session.start.closeAad inp
    finish r.1 r.2 s

/-- DECRYPT (rule R98). -/
def execDecrypt (inp : List Byte) (s : State) : Host.Outcome State Fault Refusal :=
  if !s.session.phase.acceptsPayload then raise .invalidState s
  else
    let r := payloadBytes Session.decryptByte s.session.start.closeAad inp
    finish r.1 r.2 s

end Sys2Proof.Machine
end

