-- ==== Sys2Proof/Machine/Tag.lean ====
section
/-! DEFINITION. The meanings of COMPUTE_TAG and VERIFY_TAG (40_controller.md rules R99, R100). -/

namespace Sys2Proof.Machine

/-- COMPUTE_TAG (rule R99). -/
def execComputeTag (s : State) : Host.Outcome State Fault Refusal :=
  if !s.session.phase.acceptsPayload then raise .invalidState s
  else
    let x := s.session.start.closeAad.finalize
    finish x x.tag.toList s

/-- VERIFY_TAG (rule R100): it writes no state of the session, in either outcome. -/
def execVerifyTag (inp : List Byte) (s : State) : Host.Outcome State Fault Refusal :=
  if !lengthOk inp then raise .invalidLength s
  else if !s.session.phase.acceptsVerify then raise .invalidState s
  else if tagDifference s.session.tag inp ≠ 0 then raise .tagMismatch s
  else finish s.session [] s

end Sys2Proof.Machine
end

