-- ==== Sys2Proof/Machine/Dispatch.lean ====
section
/-! DEFINITION. One arm per command (30_encoding.md rule R73). -/

namespace Sys2Proof.Machine

def exec (i : Instr) (s : State) : Host.Outcome State Fault Refusal :=
  match i with
  | .reset => Sys2Proof.Machine.execReset s
  | .setkey inp => Sys2Proof.Machine.execSetkey inp s
  | .setnonce inp => Sys2Proof.Machine.execSetnonce inp s
  | .absorbAad inp => Sys2Proof.Machine.execAbsorbAad inp s
  | .encrypt inp => Sys2Proof.Machine.execEncrypt inp s
  | .decrypt inp => Sys2Proof.Machine.execDecrypt inp s
  | .computeTag => Sys2Proof.Machine.execComputeTag s
  | .verifyTag inp => Sys2Proof.Machine.execVerifyTag inp s

end Sys2Proof.Machine
end

