-- ==== Sys2Proof/Machine/Issue.lean ====
section
/-! DEFINITION. How a command reaches the session (30_encoding.md rule R70): the host issues it, the machine takes the oldest one. -/

namespace Sys2Proof.Machine

/-- The oldest command not executed yet, decoded. -/
def State.fetch (s : State) : Option (Except DecodeError (Instr × State)) :=
  match s.pending with
  | [] => none
  | c :: rest =>
    match decode c with
    | .error e => some (.error e)
    | .ok i => some (.ok (i, { s with pending := rest }))

/-- The refusal of an undecodable command (rules R76, R77). -/
def refusalOf : DecodeError → Refusal
  | .reservedOpcode => .reservedOpcode
  | .reservedLength => .reservedLength
  | .framing => .framing

/-- The host issues a command: it is executed after every command issued before it (20_memory.md rule R59). -/
def State.issue (s : State) (c : Command) : State := { s with pending := s.pending ++ [c] }

end Sys2Proof.Machine
end

