-- ==== Sys2Proof/Machine/Step.lean ====
section
/-! DEFINITION. One step: one command, executed atomically, answered by one response (00_scope.md rule R10; 30_encoding.md rule R70). -/

namespace Sys2Proof.Machine

/-- Take the oldest command and execute it. With no command issued the session does nothing and keeps its state
(60_exceptions.md rule R201). A reserved word is refused with no step and no response (30_encoding.md rule R76). -/
def step (s : State) : Host.Outcome State Fault Refusal :=
  match s.fetch with
  | none => .next s
  | some (.error e) => .refused (refusalOf e)
  | some (.ok (i, s')) => exec i s'

/-- `s` with the table word's command (Decode.lean, `tableCommand`) as the next one the machine takes. -/
def State.withFetchWord (s : State) (nbits w : Nat) : State :=
  { s with pending := tableCommand nbits w :: s.pending }

end Sys2Proof.Machine
end

