-- ==== Sys2Proof/Machine/Pseudo.lean ====
section
/-! DEFINITION. The pseudo-instructions and the order in which a host issues commands (30_encoding.md rules R70, R79). -/

namespace Sys2Proof.Machine

/-- The pseudo-instructions of rule R79. -/
inductive Pseudo where
  | clear
  | aeadEncrypt (k n a p : List Byte)
  | aeadDecrypt (k n a c t : List Byte)
  deriving DecidableEq, Repr

/-- The command sequence a pseudo-instruction expands to (rule R79). -/
def Pseudo.expand : Pseudo → List Instr
  | .clear => [.reset]
  | .aeadEncrypt k n a p => [.reset, .setkey k, .setnonce n, .absorbAad a, .encrypt p, .computeTag]
  | .aeadDecrypt k n a c t => [.reset, .setkey k, .setnonce n, .absorbAad a, .decrypt c, .computeTag, .verifyTag t]

/-- `k` steps of the machine, stopping at the first refusal (`Host.Core.run` on `Sys2Proof.core`). -/
def runSteps : Nat → State → Host.Outcome State Fault Refusal
  | 0, s => .next s
  | k + 1, s =>
    match step s with
    | .next t => runSteps k t
    | .fault r => .fault r
    | .refused r => .refused r

/-- Commands executed one after the other, each to completion (20_memory.md rule R59). -/
def execAll : List Instr → State → Host.Outcome State Fault Refusal
  | [], s => .next s
  | i :: is, s =>
    match exec i s with
    | .next t => execAll is t
    | .fault r => .fault r
    | .refused r => .refused r

end Sys2Proof.Machine
end

