-- ==== Sys2Proof/Machine/Assembler.lean ====
section
/-! DEFINITION. The textual form of commands (30_encoding.md rules R78, R79; 00_scope.md rule R8). It is a notation of the spec's own
(decision D3) and no part of the session; how a line is cut into words is assumption log 28. -/

namespace Sys2Proof.Machine

/-- What one line of the notation stands for. -/
inductive AsmLine where
  /-- an empty or a comment line -/
  | nothing
  /-- a heading `ALG ACORN128` or `ALG ASCON128`: it emits nothing and fixes the construction parameter -/
  | algorithm (a : Alg)
  /-- the commands the line emits: one, or a pseudo-instruction's expansion -/
  | commands (is : List Instr)
  deriving DecidableEq, Repr

/-- The text before a comment (`;`) and before an expected response (`->`). -/
def asmText : List Char → List Char
  | [] => []
  | c :: r => if c = ';' then [] else if c = '-' ∧ r.head? = some '>' then [] else c :: asmText r

/-- Blanks and commas separate the words of a line. -/
def asmSeparator (c : Char) : Bool := c = ' ' || c = '\t' || c = ','

/-- The words of a text, `w` being the letters of the current word, last letter first. -/
def asmWordsFrom (w : List Char) : List Char → List (List Char)
  | [] => if w = [] then [] else [w.reverse]
  | c :: r =>
    if asmSeparator c then (if w = [] then asmWordsFrom [] r else w.reverse :: asmWordsFrom [] r)
    else asmWordsFrom (c :: w) r

/-- A hexadecimal digit. DESIGN CHOICE (assumption log 28): the spec writes its digits in upper case and says nothing of lower case
(rules R8, R78); both are read. -/
def hexDigit (c : Char) : Option (BitVec 4) :=
  if '0' ≤ c ∧ c ≤ '9' then some (BitVec.ofNat 4 (c.toNat - '0'.toNat))
  else if 'A' ≤ c ∧ c ≤ 'F' then some (BitVec.ofNat 4 (c.toNat - 'A'.toNat + 10))
  else if 'a' ≤ c ∧ c ≤ 'f' then some (BitVec.ofNat 4 (c.toNat - 'a'.toNat + 10))
  else none

/-- Two hexadecimal digits a byte, the high nibble first, `B[0]` first (00_scope.md rule R8). -/
def hexBytes : List Char → Option (List Byte)
  | [] => some []
  | [_] => none
  | a :: b :: r =>
    match hexDigit a, hexDigit b, hexBytes r with
    | some x, some y, some l => some ((x ++ y) :: l)
    | _, _, _ => none

/-- An operand: hexadecimal bytes, or `-` for the empty byte string (rule R78). -/
def asmOperand (w : List Char) : Option (List Byte) := if w = ['-'] then some [] else hexBytes w

/-- A command that takes one operand (rule R78). The assembler accepts any length. -/
def asmWithOperand (m : String) (x : List Byte) : Option (List Instr) :=
  if m = "SETKEY" then some [.setkey x]
  else if m = "SETNONCE" then some [.setnonce x]
  else if m = "ABSORB_AAD" then some [.absorbAad x]
  else if m = "ENCRYPT" then some [.encrypt x]
  else if m = "DECRYPT" then some [.decrypt x]
  else if m = "VERIFY_TAG" then some [.verifyTag x]
  else none

/-- The commands of a mnemonic and its operands (rules R78, R79). -/
def asmCommands (m : String) : List (List Byte) → Option (List Instr)
  | [] =>
    if m = "RESET" then some [.reset]
    else if m = "COMPUTE_TAG" then some [.computeTag]
    else if m = "CLEAR" then some (Pseudo.expand .clear)
    else none
  | [x] => asmWithOperand m x
  | [k, n, a, p] => if m = "AEAD_ENCRYPT" then some (Pseudo.expand (.aeadEncrypt k n a p)) else none
  | [k, n, a, c, t] => if m = "AEAD_DECRYPT" then some (Pseudo.expand (.aeadDecrypt k n a c t)) else none
  | _ => none

/-- The operands of a line, if every one of them is well written. -/
def asmOperands : List (List Char) → Option (List (List Byte))
  | [] => some []
  | w :: ws =>
    match asmOperand w, asmOperands ws with
    | some x, some l => some (x :: l)
    | _, _ => none

/-- One line of the notation (rule R78); `none` for a line that is not in it. -/
def assembleLine (line : List Char) : Option AsmLine :=
  match asmWordsFrom [] (asmText line) with
  | [] => some .nothing
  | m :: ws =>
    if String.ofList m = "ALG" then
      match ws with
      | [w] =>
        if String.ofList w = "ACORN128" then some (.algorithm .acorn128)
        else if String.ofList w = "ASCON128" then some (.algorithm .ascon128)
        else none
      | _ => none
    else
      match asmOperands ws with
      | none => none
      | some xs => (asmCommands (String.ofList m) xs).map .commands

/-- What the assembler emits for a line: `CW` and the operand bytes of each command (rule R78). -/
def AsmLine.emit : AsmLine → List Command
  | .nothing => []
  | .algorithm _ => []
  | .commands is => is.map encode

end Sys2Proof.Machine
end

