-- ==== Sys2Proof/Machine/Sessions.lean ====
section
/-! DEFINITION. Several independent sessions: "a model of `n` sessions is the product of `n` models of one session"
(60_exceptions.md rule R199; 20_memory.md rule R61). `Sys2Proof.core` is the machine of one session (decision D32). -/

namespace Sys2Proof.Machine

/-- `NSESSIONS = n` sessions, each with the commands its own host has issued and the responses it has received. -/
abbrev Sessions (n : Nat) := Vector State n

/-- One command of session `k`: it reads and writes that session's state alone (rule R61). -/
def stepSession {n : Nat} (sys : Sessions n) (k : Fin n) : Host.Outcome (Sessions n) Fault Refusal :=
  match step (sys.get k) with
  | .next t => .next (sys.set k.val t)
  | .fault r => .fault r
  | .refused r => .refused r

/-- An interleaving: the sessions named by `ks` execute one command each, in that order. -/
def runSessions {n : Nat} : List (Fin n) → Sessions n → Host.Outcome (Sessions n) Fault Refusal
  | [], sys => .next sys
  | k :: ks, sys =>
    match stepSession sys k with
    | .next sys' => runSessions ks sys'
    | .fault r => .fault r
    | .refused r => .refused r

end Sys2Proof.Machine
end

