-- ==== Sys2Proof/Safety.lean ====
section
/-! DEFINITION. The terms the claims use: the invariant of a session, the spec's tables transcribed as they stand, and the
second descriptions the spec gives of one thing (the in-place ACORN step, the ACORN schedule, the ASCON blocks), to be
held against the machine. Nothing here is called by the machine. -/

namespace Sys2Proof.Machine

/-! ## The session's invariant (10_state.md rules R21 to R23, R26, R27, R34) -/

/-- What holds of a session at its creation and after every command. -/
structure Session.Inv (x : Session) : Prop where
  /-- in `Fresh`, key or nonce is still missing (40_controller.md rule R91) -/
  fresh : x.phase = .fresh → ¬(x.keySet = true ∧ x.nonceSet = true)
  /-- "both are required before further progress" (40_controller.md rule R91) -/
  ready : x.phase ≠ .fresh → x.keySet = true ∧ x.nonceSet = true
  /-- before the first data command the engine and the counters hold their reset values (rule R92) -/
  idle : x.phase = .fresh ∨ x.phase = .keyAndNonceSet → x.engine = Engine.zero x.alg ∧ x.aadLen = 0 ∧ x.payLen = 0
  /-- no payload byte is counted before the payload phase (rule R26) -/
  noPayload : x.phase = .absorbingAad → x.payLen = 0
  /-- in every phase but `Finalized`, TAG holds the reset value (rule R27) -/
  noTag : x.phase ≠ .finalized → x.tag = Block.zero
  /-- a key that was not supplied reads as the reset value (rule R34) -/
  noKey : x.keySet = false → x.key = Block.zero
  /-- a nonce that was not supplied reads as the reset value (rule R34) -/
  noNonce : x.nonceSet = false → x.nonce = Block.zero

/-! ## The acceptance and transition matrix, cell by cell (40_controller.md rule R91) -/

/-- The phase after an accepted command or the error raised: rule R91's table, with the tag comparison of its VERIFY_TAG row. -/
def matrix (i : Instr) (x : Session) : Except ErrorKind Phase :=
  if i.format = .k ∧ i.operand.length ≠ 16 then .error .invalidLength
  else
    match i, x.phase with
    | .reset, _ => .ok .fresh
    | .setkey _, .fresh => .ok (if x.nonceSet then .keyAndNonceSet else .fresh)
    | .setkey _, .keyAndNonceSet => .ok .keyAndNonceSet
    | .setkey _, _ => .error .invalidState
    | .setnonce _, .fresh => .ok (if x.keySet then .keyAndNonceSet else .fresh)
    | .setnonce _, .keyAndNonceSet => .ok .keyAndNonceSet
    | .setnonce _, _ => .error .invalidState
    | .absorbAad _, .keyAndNonceSet => .ok .absorbingAad
    | .absorbAad _, .absorbingAad => .ok .absorbingAad
    | .absorbAad _, _ => .error .invalidState
    | .encrypt _, .fresh => .error .invalidState
    | .encrypt _, .finalized => .error .invalidState
    | .encrypt _, _ => .ok .processingPayload
    | .decrypt _, .fresh => .error .invalidState
    | .decrypt _, .finalized => .error .invalidState
    | .decrypt _, _ => .ok .processingPayload
    | .computeTag, .fresh => .error .invalidState
    | .computeTag, .finalized => .error .invalidState
    | .computeTag, _ => .ok .finalized
    | .verifyTag inp, .finalized => if inp = x.tag.toList then .ok .finalized else .error .tagMismatch
    | .verifyTag _, _ => .error .invalidState

/-! ## The opcode map by match and mask (30_encoding.md rule R73) -/

/-- A row of rule R73. -/
structure OpcodeRow where
  pattern : Word32
  mask : Word32
  build : List Byte → Instr

/-- The eight rows of rule R73. -/
def opcodeRows : List OpcodeRow :=
  [⟨0x00000000, 0xFFFFFFFF, fun _ => .reset⟩,
   ⟨0x01000000, 0xFF000000, .setkey⟩,
   ⟨0x02000000, 0xFF000000, .setnonce⟩,
   ⟨0x03000000, 0xFF000000, .absorbAad⟩,
   ⟨0x04000000, 0xFF000000, .encrypt⟩,
   ⟨0x05000000, 0xFF000000, .decrypt⟩,
   ⟨0x06000000, 0xFFFFFFFF, fun _ => .computeTag⟩,
   ⟨0x07000000, 0xFF000000, .verifyTag⟩]

/-! ## What the data commands do to the engine, byte by byte (40_controller.md rules R92, R96, R97, R98) -/

/-- The engine after the associated-data bytes `l`, the first of them with the counter `n`. -/
def aadEngine (n : Word64) (e : Engine) : List Byte → Engine
  | [] => e
  | b :: l => aadEngine (n + 1) (engAad n b e) l

/-- The engine and the output after the payload bytes `l`, the first of them with the counter `n`. -/
def payloadEngine (f : Word64 → Byte → Engine → Engine × Byte) (n : Word64) (e : Engine) : List Byte → Engine × List Byte
  | [] => (e, [])
  | b :: l => ((payloadEngine f (n + 1) (f n b e).1 l).1, (f n b e).2 :: (payloadEngine f (n + 1) (f n b e).1 l).2)

/-- The engine on which a payload command or COMPUTE_TAG works: initialised if it was not, the associated data closed if it was
not. -/
def openedEngine (x : Session) : Engine :=
  match x.phase with
  | .keyAndNonceSet => engCloseAad 0 (engInit x.key x.nonce x.engine)
  | .absorbingAad => engCloseAad x.aadLen x.engine
  | _ => x.engine

/-- A counter as a data command finds it: zeroed by `Start()` if the operation begins with it. -/
def openedCount (x : Session) (n : Word64) : Word64 := if x.phase = .keyAndNonceSet then 0 else n

/-! ## ACORN-128: the in-place step and the schedule (41_acorn128.md rules R132, R134, R143) -/

/-- The sequential in-place form of the step, update by update (rule R132, "Equivalently"). -/
def acornStepInPlace (m ca cb : Bool) (s : AcornReg) : AcornReg × Bool :=
  let s := setBit s 289 (s.getLsbD 289 ^^ s.getLsbD 235 ^^ s.getLsbD 230)
  let s := setBit s 230 (s.getLsbD 230 ^^ s.getLsbD 196 ^^ s.getLsbD 193)
  let s := setBit s 193 (s.getLsbD 193 ^^ s.getLsbD 160 ^^ s.getLsbD 154)
  let s := setBit s 154 (s.getLsbD 154 ^^ s.getLsbD 111 ^^ s.getLsbD 107)
  let s := setBit s 107 (s.getLsbD 107 ^^ s.getLsbD 66 ^^ s.getLsbD 61)
  let s := setBit s 61 (s.getLsbD 61 ^^ s.getLsbD 23 ^^ s.getLsbD 0)
  let ks := s.getLsbD 12 ^^ s.getLsbD 154 ^^ maj (s.getLsbD 235) (s.getLsbD 61) (s.getLsbD 193) ^^
    ch (s.getLsbD 230) (s.getLsbD 111) (s.getLsbD 66)
  let f := s.getLsbD 0 ^^ !(s.getLsbD 107) ^^ maj (s.getLsbD 244) (s.getLsbD 23) (s.getLsbD 160) ^^
    (ca && s.getLsbD 196) ^^ (cb && ks)
  (setBit (s >>> 1) 292 (f ^^ m), ks)

/-- The positions a step reads (rule R133). -/
def acornTaps : List Nat := [0, 12, 23, 61, 66, 107, 111, 154, 160, 193, 196, 230, 235, 244, 289]

/-- The positions a step writes other than by the plain shift (rule R133). -/
def acornWrites : List Nat := [60, 106, 153, 192, 229, 288, 292]

/-- The bits of a byte string, least significant bit of the first byte first (20_memory.md rule R53). -/
def bitsOf (l : List Byte) : List Bool := l.flatMap fun b => (List.range 8).map b.getLsbD

/-- The first bit complemented. -/
def complementFirst : List Bool → List Bool
  | [] => []
  | b :: l => (!b) :: l

/-- The inputs of one step: `m`, `ca`, `cb` (rule R131). -/
abbrev AcornInput := Bool × Bool × Bool

/-- A separator's row of rule R134. -/
def acornPadRow (cb : Bool) : List AcornInput := (List.range 256).map fun i => (i == 0, decide (i < 128), cb)

/-- The whole schedule of one operation: the rows of rule R134 in order, for a key `k`, a nonce `n`, associated data `a` and a
plaintext `p`. -/
def acornSchedule (k n a p : List Byte) : List AcornInput :=
  (bitsOf k ++ bitsOf n ++ complementFirst (List.replicate 12 (bitsOf k)).flatten).map (fun m => (m, true, true)) ++
    (bitsOf a).map (fun m => (m, true, true)) ++ acornPadRow true ++
    (bitsOf p).map (fun m => (m, true, false)) ++ acornPadRow false ++
    List.replicate 768 (false, true, true)

/-- The steps of a schedule: the register after them and the keystream bits, in order. -/
def acornRun : List AcornInput → AcornReg → AcornReg × List Bool
  | [], s => (s, [])
  | (m, ca, cb) :: l, s =>
    ((acornRun l (acornStep m ca cb s).1).1, (acornStep m ca cb s).2 :: (acornRun l (acornStep m ca cb s).1).2)

/-! ## ASCON-128: the substitution as a table, and the block description (42_ascon128.md rules R163, R172) -/

/-- The 5-bit substitution of rule R163's table. -/
def sboxTable : List Nat :=
  [0x04, 0x0B, 0x1F, 0x14, 0x1A, 0x15, 0x09, 0x02, 0x1B, 0x05, 0x08, 0x12, 0x1D, 0x03, 0x06, 0x1C,
   0x1E, 0x13, 0x07, 0x0E, 0x00, 0x0D, 0x11, 0x18, 0x10, 0x0C, 0x01, 0x19, 0x16, 0x0A, 0x0F, 0x17]

/-- One bit column of the state, `X[0]` the most significant of the five bits (rule R163). -/
def asconColumn (x : AsconReg) (i : Nat) : Nat :=
  16 * (x.x0.getLsbD i).toNat + 8 * (x.x1.getLsbD i).toNat + 4 * (x.x2.getLsbD i).toNat +
    2 * (x.x3.getLsbD i).toNat + (x.x4.getLsbD i).toNat

/-- `BE64` of eight bytes (20_memory.md rule R54). -/
def be64List (l : List Byte) : Word64 := l.foldl (fun w b => (w <<< 8) ||| b.setWidth 64) 0

/-- The right-padded blocks of a byte string: the full 8-byte blocks, then the remaining bytes with `80` and zeros to fill
exactly 8 bytes; the last block is `80 00 00 00 00 00 00 00` when nothing remains (rule R172). -/
def paddedBlocks : List Byte → List Word64
  | b0 :: b1 :: b2 :: b3 :: b4 :: b5 :: b6 :: b7 :: l => be64List [b0, b1, b2, b3, b4, b5, b6, b7] :: paddedBlocks l
  | l => [be64List (l ++ 0x80 :: List.replicate (7 - l.length) 0)]

/-- A block exclusive-ored into the rate word. -/
def asconXorRate (w : Word64) (x : AsconReg) : AsconReg := { x with x0 := x.x0 ^^^ w }

/-- Associated data by blocks: every block, the padded last one too, is followed by `P(6)` (rules R167, R171). -/
def asconAadBlocks (bs : List Word64) (x : AsconReg) : AsconReg := bs.foldl (fun x w => asconP 6 (asconXorRate w x)) x

/-- Payload by blocks: "the rate word's new value is the ciphertext", `P(6)` after every block but the last (rule R168). -/
def asconPayloadBlocks : List Word64 → AsconReg → AsconReg × List Byte
  | [], x => (x, [])
  | [w], x => (asconXorRate w x, bytes64 (asconXorRate w x).x0)
  | w :: bs, x =>
    ((asconPayloadBlocks bs (asconP 6 (asconXorRate w x))).1,
      bytes64 (asconXorRate w x).x0 ++ (asconPayloadBlocks bs (asconP 6 (asconXorRate w x))).2)

/-- The finalisation of a state whose payload is padded: the key into `X[1]`, `X[2]`, `P(12)`, the tag (rule R170). -/
def asconFinish (key : Block) (x : AsconReg) : AsconReg × List Byte :=
  let y := asconP 12 { x with x1 := x.x1 ^^^ be64 key 0, x2 := x.x2 ^^^ be64 key 8 }
  (y, bytes64 (y.x3 ^^^ be64 key 0) ++ bytes64 (y.x4 ^^^ be64 key 8))

/-- The byte-serial associated data on the register alone. -/
def asconAadBytes (n : Word64) (x : AsconReg) : List Byte → AsconReg
  | [] => x
  | b :: l => asconAadBytes (n + 1) (asconAad n b x) l

/-- The byte-serial payload on the register alone. -/
def asconEncBytes (n : Word64) (x : AsconReg) : List Byte → AsconReg × List Byte
  | [] => (x, [])
  | b :: l =>
    ((asconEncBytes (n + 1) (asconEnc n b x).1 l).1, (asconEnc n b x).2 :: (asconEncBytes (n + 1) (asconEnc n b x).1 l).2)

/-- `EngInit()` in the block description's terms: the constant, the key's two words and the nonce's two words, `P(12)`, the key again
into the last two words (rule R166). -/
def asconInitBlocks (k n : List Byte) : AsconReg :=
  let y := asconP 12 ⟨0x80400C0600000000, be64List (k.take 8), be64List (k.drop 8), be64List (n.take 8), be64List (n.drop 8)⟩
  { y with x3 := y.x3 ^^^ be64List (k.take 8), x4 := y.x4 ^^^ be64List (k.drop 8) }

/-- The state in which the payload begins: the padded associated-data blocks unless there is none, then the domain bit (rule R171). -/
def asconOpenBlocks (k n a : List Byte) : AsconReg :=
  let x := asconInitBlocks k n
  let y := if a = [] then x else asconAadBlocks (paddedBlocks a) x
  { y with x4 := y.x4 ^^^ 1 }

/-- One whole ASCON-128 encryption by blocks, for a key `k`, a nonce `n`, associated data `a` and a plaintext `p`: the final state, the
ciphertext and the tag (rules R166, R170 to R172). -/
def asconOperation (k n a p : List Byte) : AsconReg × List Byte × List Byte :=
  let r := asconPayloadBlocks (paddedBlocks p) (asconOpenBlocks k n a)
  let f := asconFinish (blockOfList k) r.1
  (f.1, r.2.take p.length, f.2)

/-! ## The data commands in the phases that accept them (40_controller.md rules R91, R96 to R98) -/

/-- `C` is ABSORB_AAD, ENCRYPT or DECRYPT, and the phase `p` accepts it. -/
def acceptsData (C : List Byte → Instr) (p : Phase) : Prop :=
  (C = .absorbAad ∧ (p = .keyAndNonceSet ∨ p = .absorbingAad)) ∨
    ((C = .encrypt ∨ C = .decrypt) ∧ (p = .keyAndNonceSet ∨ p = .absorbingAad ∨ p = .processingPayload))

end Sys2Proof.Machine
end

