-- ==== Sys2Proof/Certificates/Slice0/Obligations.lean ====
section
/-! DEFINITION. The statements about the machine. A docstring names the spec's rule or section, and says where the content is the
spec's own decision (92_eei_decisions.md) or rests on a log entry. -/

open Sys2Proof Sys2Proof.Machine

/-! ## Encoding (30_encoding.md) -/

/-- Every command decodes from its own encoding, with every operand byte (30_encoding.md sections 1 and 2; numbers: D2, D3). -/
def Obligations.DecodeOfEncode : Prop :=
  ∀ i : Instr, i.WellFormed → decode (encode i) = .ok i

/-- Each decodable command word has one meaning: it is the encoding of what it decodes to, which is well-formed
(30_encoding.md sections 1 and 2; numbers: D2, D3). -/
def Obligations.EncodeOfDecode : Prop :=
  ∀ (c : Command) (i : Instr), decode c = .ok i → encode i = c ∧ i.WellFormed

/-- "a command word `w` selects the row when `w & mask = match`. The rows are disjoint." (30_encoding.md section 2; D3). -/
def Obligations.OpcodeRowsSelect : Prop :=
  (∀ c : Command, c.inp.length = (lenField c.cw).toNat → ∀ r ∈ opcodeRows,
    (c.cw &&& r.mask = r.pattern ↔ decode c = .ok (r.build c.inp))) ∧
  ∀ w : Word32, opcodeRows.Pairwise fun r q => ¬(w &&& r.mask = r.pattern ∧ w &&& q.mask = q.pattern)

/-- The reserved command words are refused, and nothing else is but a wrongly framed buffer (30_encoding.md section 4; that a
reserved word is refused is decision D5, log 10; framing is log 3). -/
def Obligations.ReservedWordsRefused : Prop :=
  ∀ (c : Command) (s : State) (rest : List Command), s.pending = c :: rest →
    (8 ≤ (opField c.cw).toNat → step s = .refused .reservedOpcode) ∧
    ((opField c.cw = 0 ∨ opField c.cw = 6) → lenField c.cw ≠ 0 → step s = .refused .reservedLength) ∧
    ((opField c.cw).toNat < 8 → ((opField c.cw = 0 ∨ opField c.cw = 6) → lenField c.cw = 0) →
      (c.inp.length = (lenField c.cw).toNat ∧ ∃ i, decode c = .ok i ∧ step s = exec i { s with pending := rest }) ∨
      (c.inp.length ≠ (lenField c.cw).toNat ∧ step s = .refused .framing))

/-- Ten command words, read field by field: each of the eight opcodes once (30_encoding.md section 2; the numbers are D2 and D3, log 9), a
RESET word with `LEN = 1` and an opcode 0x08, which are reserved (D5, log 10). Seven of the words are rows of 95_test_vectors.md V26. -/
def Obligations.ListedWordsDecode : Prop :=
  decode ⟨0x00000000, []⟩ = .ok .reset ∧ decode ⟨0x00000001, [0]⟩ = .error .reservedLength ∧
  decode ⟨0x01000000, []⟩ = .ok (.setkey []) ∧ decode ⟨0x02000001, [7]⟩ = .ok (.setnonce [7]) ∧
  decode ⟨0x03000000, []⟩ = .ok (.absorbAad []) ∧ decode ⟨0x04000001, [0]⟩ = .ok (.encrypt [0]) ∧
  decode ⟨0x05000002, [1, 2]⟩ = .ok (.decrypt [1, 2]) ∧ decode ⟨0x06000000, []⟩ = .ok .computeTag ∧
  decode ⟨0x07000001, [9]⟩ = .ok (.verifyTag [9]) ∧ decode ⟨0x08000000, []⟩ = .error .reservedOpcode

/-- The assembler emits `CW = (OP << 24) | len(operand)` followed by the operand bytes (30_encoding.md section 5; D3). -/
def Obligations.AssembledWordLayout : Prop :=
  ∀ i : Instr, i.WellFormed →
    (encode i).cw = (i.opcode.setWidth 32 <<< 24) ||| BitVec.ofNat 32 i.operand.length ∧ (encode i).inp = i.operand

/-- The response word: `STATUS` in bits 31 to 24, one of four codes, and the byte count of `OUT` in bits 23 to 0
(30_encoding.md section 3; numbers: D4). -/
def Obligations.ResponseWordLayout : Prop :=
  ∀ r : Response, r.out.length < 16777216 →
    opField r.rw = r.status.code ∧ (lenField r.rw).toNat = r.out.length ∧
    (r.status = .ok ↔ opField r.rw = 0x00) ∧ (r.status = .invalidLength ↔ opField r.rw = 0x01) ∧
    (r.status = .invalidState ↔ opField r.rw = 0x02) ∧ (r.status = .tagMismatch ↔ opField r.rw = 0x03)

/-! ## The machine's step (00_scope.md R10, 20_memory.md R59, 30_encoding.md R70) -/

/-- When the oldest command decodes, the step is `exec` of it, with the command taken from the queue and nothing else added
(the queue is log 1). -/
def Obligations.StepRunsDecodedCommand : Prop :=
  ∀ (s : State) (c : Command) (rest : List Command) (i : Instr), s.pending = c :: rest → decode c = .ok i →
    step s = exec i { s with pending := rest }

/-- With no command issued the session does nothing and keeps its state (60_exceptions.md section 5; the idle step is log 1). -/
def Obligations.IdleStepKeepsState : Prop :=
  ∀ s : State, s.pending = [] → step s = .next s

/-- Commands execute one at a time, in the order the host issues them, each to completion: `k` steps of the machine on `k`
well-formed commands are those commands executed one after the other (20_memory.md section 4; the queue is log 1). -/
def Obligations.CommandsRunInIssueOrder : Prop :=
  ∀ (is : List Instr) (s : State) (rest : List Command), (∀ i ∈ is, i.WellFormed) → s.pending = is.map encode ++ rest →
    runSteps is.length s = execAll is { s with pending := rest }

/-! ## What each command does when it is accepted (40_controller.md section 2) -/

/-- RESET always succeeds, from every state, and leaves the state of a session just created with the same algorithm
(40_controller.md section 2, 70_reset_and_hazards.md section 1; that the discarded fields become zero is decision D9, log 6). -/
def Obligations.ResetCompletes : Prop :=
  ∀ s : State, exec .reset s = .next ((s.withSession (Session.created s.session.alg)).respond ⟨.ok, []⟩)

/-- SETKEY with 16 bytes in `Fresh` or `KeyAndNonceSet`: KEY, KEYSET, PHASE, and nothing else (40_controller.md section 2; accepted
again in `KeyAndNonceSet` by D12, log 11). -/
def Obligations.SetkeyCompletes : Prop :=
  ∀ (s : State) (inp : List Byte), inp.length = 16 →
    (s.session.phase = .fresh ∨ s.session.phase = .keyAndNonceSet) →
    ∃ k : Block, k.toList = inp ∧
      exec (.setkey inp) s = .next ((s.withSession { s.session with
        key := k, keySet := true,
        phase := if s.session.nonceSet then .keyAndNonceSet else s.session.phase }).respond ⟨.ok, []⟩)

/-- SETNONCE with 16 bytes in `Fresh` or `KeyAndNonceSet`: NONCE, NONCESET, PHASE, and nothing else (40_controller.md section 2;
accepted again in `KeyAndNonceSet` by D12, log 11). -/
def Obligations.SetnonceCompletes : Prop :=
  ∀ (s : State) (inp : List Byte), inp.length = 16 →
    (s.session.phase = .fresh ∨ s.session.phase = .keyAndNonceSet) →
    ∃ n : Block, n.toList = inp ∧
      exec (.setnonce inp) s = .next ((s.withSession { s.session with
        nonce := n, nonceSet := true,
        phase := if s.session.keySet then .keyAndNonceSet else s.session.phase }).respond ⟨.ok, []⟩)

/-- ABSORB_AAD in `KeyAndNonceSet` or `AbsorbingAAD`, for every length: the engine, AADLEN, PHASE, in `KeyAndNonceSet` also the
two counters zeroed, and nothing else (40_controller.md section 2; lazy initialisation is D13, log 12; the empty command is
D14, log 13). -/
def Obligations.AbsorbAadCompletes : Prop :=
  ∀ (s : State) (inp : List Byte),
    (s.session.phase = .keyAndNonceSet →
      exec (.absorbAad inp) s = .next ((s.withSession { s.session with
        engine := aadEngine 0 (engInit s.session.key s.session.nonce s.session.engine) inp,
        aadLen := BitVec.ofNat 64 inp.length, payLen := 0, phase := .absorbingAad }).respond ⟨.ok, []⟩)) ∧
    (s.session.phase = .absorbingAad →
      exec (.absorbAad inp) s = .next ((s.withSession { s.session with
        engine := aadEngine s.session.aadLen s.session.engine inp,
        aadLen := s.session.aadLen + BitVec.ofNat 64 inp.length }).respond ⟨.ok, []⟩))

/-- ENCRYPT in `KeyAndNonceSet`, `AbsorbingAAD` or `ProcessingPayload`, for every length: the engine opened, one ciphertext byte
a plaintext byte, PAYLEN, PHASE, in `KeyAndNonceSet` also the two counters zeroed, and nothing else (40_controller.md section 2;
D13, D14, D15, logs 12 to 14). -/
def Obligations.EncryptCompletes : Prop :=
  ∀ (s : State) (inp : List Byte),
    (s.session.phase = .keyAndNonceSet ∨ s.session.phase = .absorbingAad ∨ s.session.phase = .processingPayload) →
    ∃ out : List Byte, out.length = inp.length ∧
      out = (payloadEngine engEnc (openedCount s.session s.session.payLen) (openedEngine s.session) inp).2 ∧
      exec (.encrypt inp) s = .next ((s.withSession { s.session with
        engine := (payloadEngine engEnc (openedCount s.session s.session.payLen) (openedEngine s.session) inp).1,
        aadLen := openedCount s.session s.session.aadLen,
        payLen := openedCount s.session s.session.payLen + BitVec.ofNat 64 inp.length,
        phase := .processingPayload }).respond ⟨.ok, out⟩)

/-- DECRYPT, in the phases and with the effect of ENCRYPT, each output byte being the plaintext byte (40_controller.md section 2;
D13, D14, D15, logs 12 to 14). -/
def Obligations.DecryptCompletes : Prop :=
  ∀ (s : State) (inp : List Byte),
    (s.session.phase = .keyAndNonceSet ∨ s.session.phase = .absorbingAad ∨ s.session.phase = .processingPayload) →
    ∃ out : List Byte, out.length = inp.length ∧
      out = (payloadEngine engDec (openedCount s.session s.session.payLen) (openedEngine s.session) inp).2 ∧
      exec (.decrypt inp) s = .next ((s.withSession { s.session with
        engine := (payloadEngine engDec (openedCount s.session s.session.payLen) (openedEngine s.session) inp).1,
        aadLen := openedCount s.session s.session.aadLen,
        payLen := openedCount s.session s.session.payLen + BitVec.ofNat 64 inp.length,
        phase := .processingPayload }).respond ⟨.ok, out⟩)

/-- COMPUTE_TAG in `KeyAndNonceSet`, `AbsorbingAAD` or `ProcessingPayload`: the engine's finalisation, TAG and the 16 output bytes
equal to it, `Finalized`, in `KeyAndNonceSet` also the two counters zeroed, and nothing else (40_controller.md section 2; accepted
phases: D17, log 16; what the other registers keep: D28, log 29). -/
def Obligations.ComputeTagCompletes : Prop :=
  ∀ s : State,
    (s.session.phase = .keyAndNonceSet ∨ s.session.phase = .absorbingAad ∨ s.session.phase = .processingPayload) →
    ∃ tag : Block,
      tag = (engFinal s.session.key (openedCount s.session s.session.payLen) (openedEngine s.session)).2 ∧
      exec .computeTag s = .next ((s.withSession { s.session with
        engine := (engFinal s.session.key (openedCount s.session s.session.payLen) (openedEngine s.session)).1,
        aadLen := openedCount s.session s.session.aadLen,
        payLen := openedCount s.session s.session.payLen,
        tag := tag, phase := .finalized }).respond ⟨.ok, tag.toList⟩)

/-- VERIFY_TAG with 16 bytes in `Finalized`: `OK` exactly when all sixteen bytes equal TAG, `TagMismatch` otherwise, no output byte,
and no state of the session written in either outcome (40_controller.md section 2; accepted only in `Finalized`, repeatable:
D16, log 15). -/
def Obligations.VerifyTagCompletes : Prop :=
  ∀ (s : State) (inp : List Byte), inp.length = 16 → s.session.phase = .finalized →
    exec (.verifyTag inp) s =
      .next (s.respond ⟨if inp = s.session.tag.toList then .ok else .tagMismatch, []⟩)

/-! ## Errors (60_exceptions.md) -/

/-- Every command in every phase: the status and the phase after it are those of the acceptance and transition matrix, cell by
cell (40_controller.md section 1; cells decided by D10, D12, D14, D16 and D17, logs 7, 11, 13, 15 and 16), and a command that reports an
error leaves the phase as it was, which is decision D11 (log 8). -/
def Obligations.PhaseMatrix : Prop :=
  ∀ (i : Instr) (s : State), ∃ (t : State) (r : Response), exec i s = .next t ∧ t.responses = s.responses ++ [r] ∧
    match matrix i s.session with
    | .ok p => r.status = .ok ∧ t.session.phase = p
    | .error e => r.status = e.status ∧ t.session.phase = s.session.phase

/-- Every command has exactly one outcome: it never stops, and it appends exactly one response (60_exceptions.md section 3). -/
def Obligations.OneResponsePerCommand : Prop :=
  ∀ (i : Instr) (s : State), ∃ (t : State) (r : Response),
    exec i s = .next t ∧ t.responses = s.responses ++ [r] ∧ t.pending = s.pending

/-- A command that reports an error has no output byte and changes no state of the session (60_exceptions.md section 3; decision D11,
log 8). -/
def Obligations.ErrorsChangeNothing : Prop :=
  ∀ (i : Instr) (s t : State) (r : Response), exec i s = .next t → t.responses = s.responses ++ [r] → r.status ≠ .ok →
    t = s.respond ⟨r.status, []⟩

/-- `InvalidLength` (code 0x01) is raised by SETKEY, SETNONCE and VERIFY_TAG, by no other command, exactly when `LEN != 16`, in every
phase; a non-zero `LEN` on RESET or COMPUTE_TAG is a reserved encoding, no command (60_exceptions.md section 1). The code is a number of
D4 (log 9), that the length is checked before the phase is D10 (log 7), that the reserved word is refused is D5 (log 10). -/
def Obligations.InvalidLengthExactly : Prop :=
  Status.invalidLength.code = 0x01 ∧
  (∀ (i : Instr) (s t : State) (r : Response), exec i s = .next t → t.responses = s.responses ++ [r] →
    (r.status = .invalidLength ↔
      ∃ inp : List Byte, (i = .setkey inp ∨ i = .setnonce inp ∨ i = .verifyTag inp) ∧ inp.length ≠ 16)) ∧
  ∀ c : Command, (opField c.cw = Instr.reset.opcode ∨ opField c.cw = Instr.computeTag.opcode) → lenField c.cw ≠ 0 →
    decode c = .error .reservedLength

/-- `InvalidState` is raised exactly in the listed cells (60_exceptions.md section 1; the cells of D12, D16 and D17 are the spec's own,
logs 11, 15 and 16). -/
def Obligations.InvalidStateExactly : Prop :=
  ∀ (i : Instr) (s t : State) (r : Response), exec i s = .next t → t.responses = s.responses ++ [r] →
    (r.status = .invalidState ↔
      (∃ inp : List Byte, (i = .setkey inp ∨ i = .setnonce inp) ∧ inp.length = 16 ∧
        s.session.phase ≠ .fresh ∧ s.session.phase ≠ .keyAndNonceSet) ∨
      (∃ inp : List Byte, i = .absorbAad inp ∧ s.session.phase ≠ .keyAndNonceSet ∧ s.session.phase ≠ .absorbingAad) ∨
      (∃ inp : List Byte, (i = .encrypt inp ∨ i = .decrypt inp) ∧
        (s.session.phase = .fresh ∨ s.session.phase = .finalized)) ∨
      (i = .computeTag ∧ (s.session.phase = .fresh ∨ s.session.phase = .finalized)) ∨
      (∃ inp : List Byte, i = .verifyTag inp ∧ inp.length = 16 ∧ s.session.phase ≠ .finalized))

/-- `TagMismatch` (code 0x03) is raised only by VERIFY_TAG, in `Finalized`, with `LEN = 16`, exactly when the candidate is not TAG; the
response carries no byte, and the session is unchanged (60_exceptions.md section 1). The code is a number of D4 (log 9), that VERIFY_TAG is
accepted only in `Finalized` is D16 (log 15), that the session is unchanged is D11 and D31 (log 8). -/
def Obligations.TagMismatchExactly : Prop :=
  Status.tagMismatch.code = 0x03 ∧
  ∀ (i : Instr) (s t : State) (r : Response), exec i s = .next t → t.responses = s.responses ++ [r] →
    ((r.status = .tagMismatch ↔
      ∃ inp : List Byte, i = .verifyTag inp ∧ s.session.phase = .finalized ∧ inp.length = 16 ∧
        inp ≠ s.session.tag.toList) ∧
    (r.status = .tagMismatch → r.out = [] ∧ t.session = s.session))

/-- SETKEY, SETNONCE and VERIFY_TAG read exactly the 16 bytes `IN[0..15]`, and only after the check `LEN = 16`: with any other `LEN` the
command fails with `InvalidLength` whatever the bytes are, and with 16 bytes what SETKEY and SETNONCE load and what VERIFY_TAG
compares with TAG is all sixteen of them (20_memory.md section 3). That the length is checked before the phase is D10 (log 7), that the
failed command writes nothing is D11 (log 8), that SETKEY and SETNONCE are accepted again in `KeyAndNonceSet` is D12 (log 11), that
VERIFY_TAG writes nothing is D16 (log 15). -/
def Obligations.FixedOperandsReadWhole : Prop :=
  ∀ (s : State) (inp : List Byte),
    (inp.length ≠ 16 → ∀ i ∈ [Instr.setkey inp, Instr.setnonce inp, Instr.verifyTag inp],
      exec i s = .next (s.respond ⟨.invalidLength, []⟩)) ∧
    (inp.length = 16 → s.session.phase.acceptsKeyNonce = true →
      (∃ t, exec (.setkey inp) s = .next t ∧ ∀ j (h : j < 16), t.session.key[j] = inp.getD j 0) ∧
      (∃ t, exec (.setnonce inp) s = .next t ∧ ∀ j (h : j < 16), t.session.nonce[j] = inp.getD j 0)) ∧
    (inp.length = 16 → s.session.phase = .finalized →
      (exec (.verifyTag inp) s = .next (s.respond ⟨.ok, []⟩) ↔ ∀ j (h : j < 16), s.session.tag[j] = inp.getD j 0))

/-- The length of `OUT`: `LEN` for a successful ENCRYPT or DECRYPT, 16 for a successful COMPUTE_TAG, 0 otherwise (20_memory.md section 1,
30_encoding.md section 3). -/
def Obligations.OutputLengths : Prop :=
  ∀ (i : Instr) (s t : State) (r : Response), exec i s = .next t → t.responses = s.responses ++ [r] →
    r.out.length =
      match r.status, i with
      | .ok, .encrypt inp => inp.length
      | .ok, .decrypt inp => inp.length
      | .ok, .computeTag => 16
      | _, _ => 0

/-! ## Rules of the whole machine (10_state.md) -/

/-- The "written by" column of the state table, as what every command leaves unchanged: only RESET and SETKEY write KEY and KEYSET, only
RESET and SETNONCE write NONCE and NONCESET, only RESET and COMPUTE_TAG write TAG, SETKEY, SETNONCE and VERIFY_TAG write neither the
engine nor the counters, ABSORB_AAD and COMPUTE_TAG write PAYLEN, and the payload commands and COMPUTE_TAG write AADLEN, only where
`Start()` zeroes it, VERIFY_TAG writes nothing, and no command writes ALG (10_state.md section 1; the register that ALG does not
select does not exist, log 21). -/
def Obligations.WritersOfState : Prop :=
  ∀ (i : Instr) (s t : State), exec i s = .next t →
    t.session.alg = s.session.alg ∧
    (i ≠ .reset → (∀ k, i ≠ .setkey k) → t.session.key = s.session.key ∧ t.session.keySet = s.session.keySet) ∧
    (i ≠ .reset → (∀ n, i ≠ .setnonce n) → t.session.nonce = s.session.nonce ∧ t.session.nonceSet = s.session.nonceSet) ∧
    (i ≠ .reset → i ≠ .computeTag → t.session.tag = s.session.tag) ∧
    ((∃ x, i = .setkey x ∨ i = .setnonce x ∨ i = .verifyTag x) →
      t.session.engine = s.session.engine ∧ t.session.aadLen = s.session.aadLen ∧ t.session.payLen = s.session.payLen) ∧
    ((∃ x, i = .absorbAad x) → t.session.payLen = openedCount s.session s.session.payLen) ∧
    ((∃ x, i = .encrypt x ∨ i = .decrypt x ∨ i = .computeTag) →
      t.session.aadLen = openedCount s.session s.session.aadLen) ∧
    (i = .computeTag → t.session.payLen = openedCount s.session s.session.payLen) ∧
    ((∃ x, i = .verifyTag x) → t.session = s.session)

/-- PHASE only ever moves forward through the required order, or back to `Fresh` by RESET (10_state.md section 2; numbers: D7). -/
def Obligations.PhaseMovesForward : Prop :=
  ∀ (i : Instr) (s t : State), exec i s = .next t →
    (i = .reset ∧ t.session.phase = .fresh) ∨ s.session.phase.code ≤ t.session.phase.code

/-- Every step keeps the session's invariant (10_state.md section 2, 40_controller.md section 1): from every state that meets it, not only
those a run reaches. It rests on D7, D9, D11 to D17 and D28 (logs 6, 8, 11 to 16, 29). -/
def Obligations.StepKeepsSessionInvariant : Prop :=
  ∀ s t : State, s.session.Inv → step s = .next t → t.session.Inv

/-- The session's invariant holds at creation, for either algorithm, and so at reset (10_state.md section 4; D8, log 5). -/
def Obligations.CreationMeetsInvariant : Prop :=
  (∀ a : Alg, (State.create a).session.Inv) ∧ State.reset.session.Inv

/-- The creation state: `Fresh`, flags 0, sixteen zero bytes in KEY, NONCE and TAG, counters 0, the register that exists all zero, `ALG` as
given (70_reset_and_hazards.md section 1; decision D8, log 5; the empty queue and the empty list of responses are logs 1 and 2). -/
def Obligations.CreationState : Prop :=
  ∀ a : Alg, (State.create a).session.alg = a ∧ (State.create a).session.phase = .fresh ∧
    (State.create a).session.keySet = false ∧ (State.create a).session.nonceSet = false ∧
    (State.create a).session.key.toList = List.replicate 16 0 ∧ (State.create a).session.nonce.toList = List.replicate 16 0 ∧
    (State.create a).session.tag.toList = List.replicate 16 0 ∧
    (State.create a).session.aadLen = 0 ∧ (State.create a).session.payLen = 0 ∧
    ((State.create a).session.engine = .acorn 0 ∨ (State.create a).session.engine = .ascon ⟨0, 0, 0, 0, 0⟩) ∧
    (State.create a).pending = [] ∧ (State.create a).responses = []

/-- What a response reveals of the session: two commands of the same kind and the same length, whatever their bytes, in two states of the
same phase, whatever the algorithm, the key, the nonce, the tag, the counters and the engine hold, answer the same status and the
same number of output bytes. The one exception is VERIFY_TAG in `Finalized`, whose status also says whether the candidate is TAG
(10_state.md section 3, 40_controller.md section 1; the checks and their order: D10, D16, D17, logs 7, 15, 16). -/
def Obligations.ResponseShapeFollowsPhaseAndLength : Prop :=
  ∀ (i j : Instr) (s u : State), i.opcode = j.opcode → i.operand.length = j.operand.length → s.session.phase = u.session.phase →
    (∀ x y, i = .verifyTag x → j = .verifyTag y → s.session.phase = .finalized →
      (x = s.session.tag.toList ↔ y = u.session.tag.toList)) →
    ∃ (s' u' : State) (r q : Response), exec i s = .next s' ∧ exec j u = .next u' ∧
      s'.responses = s.responses ++ [r] ∧ u'.responses = u.responses ++ [q] ∧
      r.status = q.status ∧ r.out.length = q.out.length

/-- The engines read the counters only through their residues mod 8 and, at the close of the associated data, the test against 0; the
residue counts on across the wrap at 2^64; ACORN-128 reads neither (10_state.md section 2; width: D18, log 17). -/
def Obligations.CountersReadModuloEight : Prop :=
  (∀ (n m : Word64) (b : Byte) (k : Block) (e : Engine), n.toNat % 8 = m.toNat % 8 →
    engAad n b e = engAad m b e ∧ engEnc n b e = engEnc m b e ∧ engDec n b e = engDec m b e ∧
    engFinal k n e = engFinal k m e ∧ ((n = 0 ↔ m = 0) → engCloseAad n e = engCloseAad m e)) ∧
  (∀ n : Word64, (n + 1).toNat % 8 = (n.toNat % 8 + 1) % 8) ∧
  ∀ (n m : Word64) (b : Byte) (k : Block) (x : AcornReg),
    engAad n b (.acorn x) = engAad m b (.acorn x) ∧ engEnc n b (.acorn x) = engEnc m b (.acorn x) ∧
    engDec n b (.acorn x) = engDec m b (.acorn x) ∧ engFinal k n (.acorn x) = engFinal k m (.acorn x) ∧
    engCloseAad n (.acorn x) = engCloseAad m (.acorn x)

/-! ## Properties the rules give (40_controller.md section 3) -/

/-- Both directions in one engine: from the same state, decrypting the ciphertext byte returns the plaintext byte and leaves the engine
encrypting left, for both algorithms (40_controller.md section 3). -/
def Obligations.DecryptByteUndoesEncryptByte : Prop :=
  ∀ (n : Word64) (p : Byte) (e : Engine), engDec n (engEnc n p e).2 e = ((engEnc n p e).1, p)

/-- Round trip and equal tags: for all 16-byte keys and nonces and all byte strings, AEAD_DECRYPT of AEAD_ENCRYPT's results under the same
algorithm returns the plaintext, the same tag and `OK`, from whatever states the two operations start (40_controller.md
section 3; expansions: 30_encoding.md section 5, D3; RESET: D9, log 6; the empty data commands: D14, log 13). -/
def Obligations.AeadRoundTrip : Prop :=
  ∀ (s u : State) (k n a p : List Byte), s.session.alg = u.session.alg → k.length = 16 → n.length = 16 →
    ∃ (c tag : List Byte) (t v : State), c.length = p.length ∧ tag.length = 16 ∧
      execAll (Pseudo.aeadEncrypt k n a p).expand s = .next t ∧
      t.responses = s.responses ++ [⟨.ok, []⟩, ⟨.ok, []⟩, ⟨.ok, []⟩, ⟨.ok, []⟩, ⟨.ok, c⟩, ⟨.ok, tag⟩] ∧
      execAll (Pseudo.aeadDecrypt k n a c tag).expand u = .next v ∧
      v.responses = u.responses ++
        [⟨.ok, []⟩, ⟨.ok, []⟩, ⟨.ok, []⟩, ⟨.ok, []⟩, ⟨.ok, p⟩, ⟨.ok, tag⟩, ⟨.ok, []⟩]

/-- Nothing a session did before RESET matters afterwards: RESET followed by any commands, from any two states with the same algorithm, gives
the same responses and leaves the same session. The expansions of AEAD_ENCRYPT and AEAD_DECRYPT begin with RESET, so both are cases of
it, and ciphertext and tag are a function of the algorithm and the operands alone (40_controller.md section 2;
70_reset_and_hazards.md section 3). That RESET leaves one and the same value in every field is D9 (log 6). -/
def Obligations.AeadForgetsThePast : Prop :=
  ∀ (s u : State) (is : List Instr), s.session.alg = u.session.alg →
    ∃ (t v : State) (rs : List Response), execAll (.reset :: is) s = .next t ∧ execAll (.reset :: is) u = .next v ∧
      t.responses = s.responses ++ rs ∧ v.responses = u.responses ++ rs ∧ t.session = v.session

/-- Chunking independence: one ABSORB_AAD, ENCRYPT or DECRYPT over `l ++ m` and two of the same kind over `l` and `m` leave the same session
and give the same output, in every state (40_controller.md section 3). An empty `l` or `m` moves the phase by D14 (log 13); in a state
that does not accept the command all three fail and change nothing, by D11 (log 8). -/
def Obligations.ChunkingIndependence : Prop :=
  ∀ (s : State) (l m : List Byte), ∀ C ∈ [Instr.absorbAad, Instr.encrypt, Instr.decrypt],
    ∃ (t t1 t2 : State) (r r1 r2 : Response), exec (C (l ++ m)) s = .next t ∧ t.responses = s.responses ++ [r] ∧
      exec (C l) s = .next t1 ∧ t1.responses = s.responses ++ [r1] ∧
      exec (C m) t1 = .next t2 ∧ t2.responses = s.responses ++ [r1, r2] ∧
      t2.session = t.session ∧ r.out = r1.out ++ r2.out ∧ r.status = r1.status ∧ r.status = r2.status

/-- Streaming: one data command over a non-empty string and that many one-byte commands leave the same session and give the same
bytes (20_memory.md section 3, 40_controller.md section 3). In a state that does not accept the command all of them fail and change nothing,
by D11 (log 8). The empty command is `EmptyDataKeepsTag`'s; the statuses are `ResultIndependentOfCut`'s. -/
def Obligations.StreamingByteByByte : Prop :=
  ∀ (s : State) (inp : List Byte), inp ≠ [] → ∀ C ∈ [Instr.absorbAad, Instr.encrypt, Instr.decrypt],
    ∃ (t v : State) (r : Response) (rs : List Response), exec (C inp) s = .next t ∧ t.responses = s.responses ++ [r] ∧
      execAll (inp.map fun b => C [b]) s = .next v ∧ v.responses = s.responses ++ rs ∧
      v.session = t.session ∧ r.out = rs.flatMap Response.out

/-- "the result for a byte string does not depend on how it was cut into commands" (20_memory.md R55): in every phase that accepts the
command, one data command over a string and the commands of the same kind over its parts, in order, all answer `OK`, leave the same
session and output the same bytes, for every cut, that into single bytes and those with empty parts included. -/
def Obligations.ResultIndependentOfCut : Prop :=
  ∀ (C : List Byte → Instr) (s : State), acceptsData C s.session.phase → ∀ bs : List (List Byte), bs ≠ [] →
    ∃ (t v : State) (r : Response) (rs : List Response), exec (C bs.flatten) s = .next t ∧ t.responses = s.responses ++ [r] ∧
      execAll (bs.map C) s = .next v ∧ v.responses = s.responses ++ rs ∧
      v.session = t.session ∧ rs.flatMap Response.out = r.out ∧ r.status = .ok ∧ ∀ q ∈ rs, q.status = .ok

/-- Streaming (20_memory.md R56): in every phase that accepts it, a data command of any length, 0 included, completes with `OK`; its bytes are
consumed in order, one at a time: the session after `l` and `b` is the session after `b` alone from where `l` left it, wherever `l`
ends inside a block; and for ENCRYPT and DECRYPT output byte `i` is what the command over `IN[i]` alone outputs in the state after bytes
`0 .. i-1`, whatever follows, one output byte an input byte. -/
def Obligations.DataCommandsStream : Prop :=
  ∀ (C : List Byte → Instr) (s : State), acceptsData C s.session.phase → ∀ (l m : List Byte) (b : Byte),
    ∃ (tl tb tlb t : State) (rl rb rlb r : Response),
      exec (C l) s = .next tl ∧ tl.responses = s.responses ++ [rl] ∧ rl.status = .ok ∧
      exec (C [b]) tl = .next tb ∧ tb.responses = tl.responses ++ [rb] ∧ rb.status = .ok ∧
      exec (C (l ++ [b])) s = .next tlb ∧ tlb.responses = s.responses ++ [rlb] ∧ rlb.status = .ok ∧
      exec (C (l ++ b :: m)) s = .next t ∧ t.responses = s.responses ++ [r] ∧ r.status = .ok ∧
      tb.session = tlb.session ∧
      (C ≠ .absorbAad → r.out.length = l.length + 1 + m.length ∧ rb.out.length = 1 ∧ r.out[l.length]? = rb.out[0]?)

/-- Both directions in one engine (40_controller.md section 3, where the spec marks the claim as its own inference, derived from the engines'
rules): from every engine state, `EngDec` undoes `EngEnc` and `EngEnc` undoes `EngDec`, with the same state after; so `EngDec(c)` is
`c ^ k` for the byte `k` with which `EngEnc(p)` is `p ^ k`, a clause that follows from the first and is kept for the rule's wording; and
in every phase that accepts them, ENCRYPT over a string and DECRYPT over its output, from the same state, leave the same session and
return the string. -/
def Obligations.BothDirectionsInOneEngine : Prop :=
  (∀ (n : Word64) (e : Engine) (p : Byte), engDec n (engEnc n p e).2 e = ((engEnc n p e).1, p)) ∧
  (∀ (n : Word64) (e : Engine) (c : Byte), engEnc n (engDec n c e).2 e = ((engDec n c e).1, c)) ∧
  (∀ (n : Word64) (e : Engine) (p : Byte), ∃ k : Byte, (engEnc n p e).2 = p ^^^ k ∧ (engDec n (p ^^^ k) e).2 = (p ^^^ k) ^^^ k) ∧
  ∀ (s : State) (inp : List Byte), acceptsData .encrypt s.session.phase →
    ∃ (t u : State) (c : List Byte), exec (.encrypt inp) s = .next t ∧ t.responses = s.responses ++ [⟨.ok, c⟩] ∧
      exec (.decrypt c) s = .next u ∧ u.responses = s.responses ++ [⟨.ok, inp⟩] ∧ u.session = t.session

/-- Zero lengths: an empty ABSORB_AAD, ENCRYPT or DECRYPT before COMPUTE_TAG changes neither the tag, nor the session it leaves, nor its
response (40_controller.md section 3). Where the empty command is accepted it moves the phase by D14 (log 13); where it is refused, it
changes nothing, by D11 (log 8). -/
def Obligations.EmptyDataKeepsTag : Prop :=
  ∀ s : State, ∀ i ∈ [Instr.absorbAad [], Instr.encrypt [], Instr.decrypt []],
    ∃ (t t1 t2 : State) (r r1 : Response), exec .computeTag s = .next t ∧ t.responses = s.responses ++ [r] ∧
      exec i s = .next t1 ∧ t1.responses = s.responses ++ [r1] ∧
      exec .computeTag t1 = .next t2 ∧ t2.responses = s.responses ++ [r1, r] ∧ t2.session = t.session

/-- RESET, a repeated SETKEY or SETNONCE with the same operand, and VERIFY_TAG are idempotent: the second execution leaves the session as the
first did and answers the same (20_memory.md section 3). That SETKEY and SETNONCE are accepted a second time is D12 (log 11), that VERIFY_TAG may
be repeated is D16 (log 15), that one of them which fails changes nothing, so that it fails again, is D11 (log 8). -/
def Obligations.RepeatableCommandsIdempotent : Prop :=
  ∀ (s : State) (x : List Byte), ∀ i ∈ [Instr.reset, Instr.setkey x, Instr.setnonce x, Instr.verifyTag x],
    ∃ (t u : State) (r : Response), exec i s = .next t ∧ t.responses = s.responses ++ [r] ∧
      exec i t = .next u ∧ u.responses = s.responses ++ [r, r] ∧ u.session = t.session

/-- "Last write wins", and key and nonce may be supplied in either order: in every state, a 16-byte SETKEY (SETNONCE) makes an earlier one
count for nothing, and swapping a SETKEY with the SETNONCE after it leaves the same session (40_controller.md section 2; D12,
log 11). Where one of them fails, by its length or its phase, it changes nothing, by D11 (log 8; 60_exceptions.md section 3). -/
def Obligations.LastWriteWinsInEitherOrder : Prop :=
  ∀ (s : State) (x y : List Byte), y.length = 16 →
    (∃ t u v, exec (.setkey y) s = .next t ∧ exec (.setkey x) s = .next u ∧ exec (.setkey y) u = .next v ∧
      v.session = t.session) ∧
    (∃ t u v, exec (.setnonce y) s = .next t ∧ exec (.setnonce x) s = .next u ∧ exec (.setnonce y) u = .next v ∧
      v.session = t.session) ∧
    (∃ t u, execAll [.setkey x, .setnonce y] s = .next t ∧ execAll [.setnonce y, .setkey x] s = .next u ∧
      u.session = t.session)

/-! ## ACORN-128 (41_acorn128.md) -/

/-- `maj` is the majority of three bits and `ch` is "if `x` then `y` else `z`", by the two formulas (41_acorn128.md R130, which the
spec marks as general knowledge, G4). -/
def Obligations.MajorityAndChoice : Prop :=
  ∀ x y z : Bool,
    maj x y z = ((x && y) ^^ (x && z) ^^ (y && z)) ∧ ch x y z = ((x && y) ^^ (!x && z)) ∧
    (maj x y z = true ↔ 2 ≤ x.toNat + y.toNat + z.toNat) ∧ ch x y z = if x then y else z

/-- `AcornStep` bit by bit: every bit of the new register and the keystream bit, and the equivalent sequential in-place form, for every
register and every input; the keystream bit does not depend on the inputs (41_acorn128.md R132, whose formulas the spec marks as
general knowledge, G5 to G7). -/
def Obligations.AcornStepBitByBit : Prop :=
  ∀ (m ca cb : Bool) (s : AcornReg),
    let b := fun j => s.getLsbD j
    let t289 := b 289 ^^ b 235 ^^ b 230
    let t230 := b 230 ^^ b 196 ^^ b 193
    let t193 := b 193 ^^ b 160 ^^ b 154
    let t154 := b 154 ^^ b 111 ^^ b 107
    let t107 := b 107 ^^ b 66 ^^ b 61
    let t61 := b 61 ^^ b 23 ^^ b 0
    let ks := b 12 ^^ t154 ^^ maj (b 235) t61 t193 ^^ ch t230 (b 111) (b 66)
    let f := b 0 ^^ !t107 ^^ maj (b 244) (b 23) (b 160) ^^ (ca && b 196) ^^ (cb && ks)
    (acornStep m ca cb s).2 = ks ∧
    (∀ j, j < 293 → (acornStep m ca cb s).1.getLsbD j =
      if j = 60 then t61 else if j = 106 then t107 else if j = 153 then t154 else if j = 192 then t193
      else if j = 229 then t230 else if j = 288 then t289 else if j = 292 then f ^^ m else b (j + 1)) ∧
    acornStepInPlace m ca cb s = acornStep m ca cb s ∧
    (∀ m' ca' cb', (acornStep m' ca' cb' s).2 = (acornStep m ca cb s).2) ∧
    acornStep false true true 0 = (BitVec.twoPow 293 292, false) ∧ acornStep true true true 0 = (0, false)

/-- The positions a step reads and writes: two registers that agree on the fifteen taps give the same keystream bit and the same seven
written bits, and every other bit is the plain shift (41_acorn128.md section 1; constants: G5 to G7, log 19). -/
def Obligations.AcornTapPositions : Prop :=
  (∀ (m ca cb : Bool) (s u : AcornReg), (∀ j ∈ acornTaps, s.getLsbD j = u.getLsbD j) →
    (acornStep m ca cb s).2 = (acornStep m ca cb u).2 ∧
    ∀ j ∈ acornWrites, (acornStep m ca cb s).1.getLsbD j = (acornStep m ca cb u).1.getLsbD j) ∧
  ∀ (m ca cb : Bool) (s : AcornReg) (j : Nat), j < 293 → j ∉ acornWrites →
    (acornStep m ca cb s).1.getLsbD j = s.getLsbD (j + 1)

/-- One whole ACORN-128 operation is the schedule of `3072 + 8(A + L)` steps: from any state, AEAD_ENCRYPT leaves the register that bit-serial
steps with the scheduled inputs leave from the zero register, its ciphertext bits are the plaintext bits exclusive-ored with the
keystream bits of the payload's steps, and its tag bits are the last 128 keystream bits (41_acorn128.md sections 1 and 3;
constants: D21, D23, D24, log 19; the order of the bits in the bytes: D20, log 18). -/
def Obligations.AcornOperationIsSchedule : Prop :=
  ∀ (s : State) (k n a p : List Byte), s.session.alg = .acorn128 → k.length = 16 → n.length = 16 →
    (acornSchedule k n a p).length = 3072 + 8 * (a.length + p.length) ∧
    ∃ (t : State) (c tag : List Byte), execAll (Pseudo.aeadEncrypt k n a p).expand s = .next t ∧
      t.responses = s.responses ++ [⟨.ok, []⟩, ⟨.ok, []⟩, ⟨.ok, []⟩, ⟨.ok, []⟩, ⟨.ok, c⟩, ⟨.ok, tag⟩] ∧
      t.session.engine = .acorn (acornRun (acornSchedule k n a p) 0).1 ∧
      bitsOf c = List.zipWith xor (bitsOf p)
        ((acornRun (acornSchedule k n a p) 0).2.drop (1792 + 8 * a.length + 256)) ∧
      bitsOf tag = (acornRun (acornSchedule k n a p) 0).2.drop (2944 + 8 * (a.length + p.length))

/-! ## ASCON-128 (42_ascon128.md) -/

/-- The twelve round constants, listed and by formula (42_ascon128.md R161, which the spec marks as general knowledge, G17). -/
def Obligations.AsconRoundConstantTable : Prop :=
  asconRoundConstants = [0xF0, 0xE1, 0xD2, 0xC3, 0xB4, 0xA5, 0x96, 0x87, 0x78, 0x69, 0x5A, 0x4B] ∧
  ∀ r, r < 12 → asconRoundConstants.getD r 0 = (BitVec.ofNat 8 (15 - r) <<< 4) ||| BitVec.ofNat 8 r

/-- The substitution layer is 64 parallel copies of one 5-bit substitution, whose table is the spec's (42_ascon128.md section 1; G19,
log 20). -/
def Obligations.AsconSubstitutionIsTable : Prop :=
  ∀ (x : AsconReg) (i : Nat), i < 64 → sboxTable[asconColumn x i]? = some (asconColumn (asconSubstitute x) i)

/-- `P(12)` and `P(6)` use the last twelve and the last six round constants in order, each is a bijection on the 320-bit state, and on the
all-zero state they give the rule's two examples (42_ascon128.md R165; which constants `P(6)` uses the spec marks as general knowledge, G17). -/
def Obligations.AsconPermutationBijective : Prop :=
  (∀ x : AsconReg, asconP 6 x =
    asconRound 0x4B (asconRound 0x5A (asconRound 0x69 (asconRound 0x78 (asconRound 0x87 (asconRound 0x96 x)))))) ∧
  (∀ x : AsconReg, asconP 12 x =
    asconP 6 (asconRound 0xA5 (asconRound 0xB4 (asconRound 0xC3 (asconRound 0xD2 (asconRound 0xE1 (asconRound 0xF0 x))))))) ∧
  Function.Bijective (asconP 12) ∧ Function.Bijective (asconP 6) ∧
  asconP 12 ⟨0, 0, 0, 0, 0⟩ = ⟨0x78EA7AE5CFEBB108, 0x9B9BFB8513B560F7, 0x6937F83E03D11A50, 0x3FE53F36F2C1178C, 0x045D648E4DEF12C9⟩ ∧
  asconP 6 ⟨0, 0, 0, 0, 0⟩ = ⟨0x160C84F20FAAD4F1, 0x21495B1B0AE33EEF, 0xE0377D04E23A914B, 0x2B23481598FFA8EA, 0x649AF379BA83CD30⟩

/-- The byte-serial rules equal the block description, for associated data and for payload absorbed from a block boundary: every block of the
right-padded string exclusive-ored into the rate word, `P(6)` after each but the payload's last, the ciphertext the rate word's
bytes, as many as the plaintext has, and the finalisation on the result (42_ascon128.md section 3; D18, D25, logs 17 and 20). -/
def Obligations.AsconBytesEqualBlocks : Prop :=
  (∀ (n : Word64) (x : AsconReg) (l : List Byte), n.toNat % 8 = 0 → l ≠ [] → n + BitVec.ofNat 64 l.length ≠ 0 →
    asconCloseAad (n + BitVec.ofNat 64 l.length) (asconAadBytes n x l) =
      { asconAadBlocks (paddedBlocks l) x with x4 := (asconAadBlocks (paddedBlocks l) x).x4 ^^^ 1 }) ∧
  (∀ x : AsconReg, asconCloseAad 0 x = { x with x4 := x.x4 ^^^ 1 }) ∧
  ∀ (n : Word64) (x : AsconReg) (l : List Byte) (key : Block), n.toNat % 8 = 0 →
    (asconEncBytes n x l).2 = (asconPayloadBlocks (paddedBlocks l) x).2.take l.length ∧
    (asconFinal key (n + BitVec.ofNat 64 l.length) (asconEncBytes n x l).1).1 =
      (asconFinish key (asconPayloadBlocks (paddedBlocks l) x).1).1 ∧
    (asconFinal key (n + BitVec.ofNat 64 l.length) (asconEncBytes n x l).1).2.toList =
      (asconFinish key (asconPayloadBlocks (paddedBlocks l) x).1).2

/-- ASCON-128's `EngInit`: the initial constant, the key's and the nonce's words in the order K0, K1, N0, N1, `P(12)`, then the key
exclusive-ored into `X[3]` and `X[4]`; it does not read `X`; with the rule's example (42_ascon128.md section 2; the constant: D22,
G14, log 20; the words' byte order: D20, log 18). -/
def Obligations.AsconInitialisation : Prop :=
  (∀ (k n : Block) (x : AsconReg), engInit k n (.ascon x) = .ascon (asconInitBlocks k.toList n.toList)) ∧
  ∀ x : AsconReg,
    engInit (Vector.ofFn fun i => BitVec.ofNat 8 i.val) (Vector.ofFn fun i => BitVec.ofNat 8 i.val) (.ascon x) =
      .ascon ⟨0xBC830FBEF3A1651B, 0x487A66865036B909, 0xA031B0C5810C1CD6, 0xDD7CE72083702217, 0x9B17156EDE557CE7⟩

/-- One whole ASCON-128 operation is the block description: from any state, AEAD_ENCRYPT leaves the register, and outputs the ciphertext and
the tag, of initialisation, padded associated-data blocks, domain bit, padded payload blocks and finalisation (42_ascon128.md
sections 2 and 3; constants: D22, D25, log 20; byte order: D20, log 18; RESET: D9, log 6; the counters' width, which the bound on the
associated data keeps from wrapping: D18, log 17). -/
def Obligations.AsconOperationIsBlocks : Prop :=
  ∀ (s : State) (k n a p : List Byte), s.session.alg = .ascon128 → k.length = 16 → n.length = 16 → a.length < 2 ^ 64 →
    ∃ t : State, execAll (Pseudo.aeadEncrypt k n a p).expand s = .next t ∧
      t.responses = s.responses ++ [⟨.ok, []⟩, ⟨.ok, []⟩, ⟨.ok, []⟩, ⟨.ok, []⟩, ⟨.ok, (asconOperation k n a p).2.1⟩,
        ⟨.ok, (asconOperation k n a p).2.2⟩] ∧
      t.session.engine = .ascon (asconOperation k n a p).1

/-! ## Bytes, bits and words (20_memory.md section 2) -/

/-- ASCON-128 packs bytes big-endian: byte `a+j` of a register is bits `63-8j .. 56-8j` of the word, and the bytes of the two words are the
register's bytes (20_memory.md section 2; D20, log 18). -/
def Obligations.AsconByteOrderBigEndian : Prop :=
  ∀ b : Block,
    (∀ j i, j < 8 → i < 8 → (be64 b 0).getLsbD (56 - 8 * j + i) = (blockByte b j).getLsbD i ∧
      (be64 b 8).getLsbD (56 - 8 * j + i) = (blockByte b (8 + j)).getLsbD i) ∧
    bytes64 (be64 b 0) ++ bytes64 (be64 b 8) = b.toList ∧
    ∀ w : Word64, be64List (bytes64 w) = w

/-- ACORN-128 takes the least significant bit of byte 0 first: bit `8i+j` of a register is bit `j` of byte `i`, in both directions
(20_memory.md section 2; D20, log 18). -/
def Obligations.AcornBitOrderLsbFirst : Prop :=
  (∀ (b : Block) (i j : Nat), i < 16 → j < 8 → blockBit b (8 * i + j) = (blockByte b i).getLsbD j) ∧
  (∀ (v : BitVec 128) (i : Nat), i < 128 → blockBit (blockOfBits v) i = v.getLsbD i) ∧
  ∀ b : Block, bitsOf b.toList = (List.range 128).map (blockBit b)

/-! ## Several sessions (20_memory.md R61) -/

/-- Sessions are independent: a command of one session neither reads nor writes any state of another, so in any interleaving each session
takes exactly the steps it takes alone and ends as it ends alone; and an interleaving stops only where some session stops alone
(20_memory.md section 4; the product of sessions: 60_exceptions.md section 5). That a step of the product is one command of one session,
never two that overlap, is D27 and D32 (log 22); each session's queue is log 1. -/
def Obligations.SessionsIndependent : Prop :=
  (∀ (n : Nat) (sys : Sessions n) (k : Fin n) (sys' : Sessions n), stepSession sys k = .next sys' →
    step (sys.get k) = .next (sys'.get k) ∧ ∀ j : Fin n, j ≠ k → sys'.get j = sys.get j) ∧
  (∀ (n : Nat) (ks : List (Fin n)) (sys sys' : Sessions n), runSessions ks sys = .next sys' →
    ∀ k : Fin n, runSteps (ks.count k) (sys.get k) = .next (sys'.get k)) ∧
  ∀ (n : Nat) (ks : List (Fin n)) (sys : Sessions n),
    (∀ k : Fin n, ∃ t : State, runSteps (ks.count k) (sys.get k) = .next t) →
    ∃ sys' : Sessions n, runSessions ks sys = .next sys'
end

