-- ==== Sys2Proof/Laws/Bits.lean ====
section
/-! SUPPORT. What the bit, byte and loop operations of Machine/Ops.lean do, once each. -/

namespace Sys2Proof.Machine

@[simp] theorem loop_zero {α : Type} (f : Nat → α → α) (a : α) : loop 0 f a = a := rfl

theorem loop_succ {α : Type} (n : Nat) (f : Nat → α → α) (a : α) : loop (n + 1) f a = f n (loop n f a) := rfl

/-- A loop is a fold over its indices in rising order. -/
theorem loop_eq_foldl {α : Type} (n : Nat) (f : Nat → α → α) (a : α) :
    loop n f a = (List.range n).foldl (fun x i => f i x) a := by
  induction n with
  | zero => rfl
  | succ n ih => simp [loop_succ, List.range_succ, ih]

/-- An invariant of a loop's body is an invariant of the loop. -/
theorem loop_induction {α : Type} (P : Nat → α → Prop) (n : Nat) (f : Nat → α → α) (a : α) (h0 : P 0 a)
    (hs : ∀ i x, i < n → P i x → P (i + 1) (f i x)) : P n (loop n f a) := by
  induction n with
  | zero => exact h0
  | succ n ih => exact hs n _ (by omega) (ih fun i x h => hs i x (by omega))

/-- Reading one bit after writing one bit. -/
theorem getLsbD_setBit {w : Nat} (v : BitVec w) (i j : Nat) (b : Bool) :
    (setBit v i b).getLsbD j = if j = i ∧ i < w then b else v.getLsbD j := by
  unfold setBit
  by_cases hji : j = i
  · subst hji
    by_cases hw : j < w
    · cases b <;> simp [hw]
    · have h : v.getLsbD j = false := BitVec.getLsbD_of_ge _ _ (by omega)
      cases b <;> simp [hw, h]
  · have h : v.getLsbD j = true → j < w := BitVec.lt_of_getLsbD
    cases b
    · simpa [hji, Ne.symm hji] using h
    · simp [hji, Ne.symm hji]

@[simp] theorem getLsbD_setBit_self {w : Nat} (v : BitVec w) (i : Nat) (b : Bool) (h : i < w) :
    (setBit v i b).getLsbD i = b := by rw [getLsbD_setBit]; simp [h]

theorem getLsbD_setBit_ne {w : Nat} (v : BitVec w) (i j : Nat) (b : Bool) (h : j ≠ i) :
    (setBit v i b).getLsbD j = v.getLsbD j := by rw [getLsbD_setBit]; simp [h]

/-- The same for the bracket notation, which is simp's normal form for a position known to be in range. -/
@[simp] theorem getElem_setBit {w : Nat} (v : BitVec w) (i j : Nat) (b : Bool) (h : j < w) :
    (setBit v i b)[j] = if j = i then b else v[j] := by
  rw [← BitVec.getLsbD_eq_getElem, getLsbD_setBit, ← BitVec.getLsbD_eq_getElem]
  by_cases hji : j = i
  · subst hji; simp only [true_and, h, if_true]
  · simp only [hji, false_and, if_false]

/-- One bit of a rotation right. -/
theorem getLsbD_ror64 (v : Word64) (n i : Nat) (hn : 1 ≤ n) (hn' : n ≤ 63) (hi : i < 64) :
    (ror64 v n).getLsbD i = v.getLsbD ((i + n) % 64) := by
  unfold ror64
  simp only [BitVec.getLsbD_or, BitVec.getLsbD_ushiftRight, BitVec.getLsbD_shiftLeft]
  by_cases h : i + n < 64
  · rw [Nat.mod_eq_of_lt h, Nat.add_comm n i]
    have : i < 64 - n := by omega
    simp [this]
  · have e : (i + n) % 64 = i - (64 - n) := by omega
    have h1 : v.getLsbD (n + i) = false := BitVec.getLsbD_of_ge _ _ (by omega)
    have h2 : ¬ i < 64 - n := by omega
    simp [e, h1, h2, hi]

/-- Rotations compose. -/
theorem ror64_ror64 (v : Word64) (a b c : Nat) (ha : 1 ≤ a) (ha' : a ≤ 63) (hb : 1 ≤ b) (hb' : b ≤ 63)
    (hc : 1 ≤ c) (hc' : c ≤ 63) (h : (a + b) % 64 = c) : ror64 (ror64 v a) b = ror64 v c := by
  refine BitVec.eq_of_getLsbD_eq fun i hi => ?_
  rw [getLsbD_ror64 _ b i hb hb' hi, getLsbD_ror64 _ a _ ha ha' (by omega), getLsbD_ror64 _ c i hc hc' hi]
  congr 1
  omega

/-- The bytes of a 16-byte register loaded from 16 bytes are those bytes. -/
@[simp] theorem toList_blockOfList (l : List Byte) (h : l.length = 16) : (blockOfList l).toList = l := by
  refine List.ext_getElem (by simp [h]) fun i h1 h2 => ?_
  simp [blockOfList, h2]

theorem blockOfList_toList (b : Block) : blockOfList b.toList = b := by
  have h : (blockOfList b.toList).toList = b.toList := toList_blockOfList _ (by simp)
  exact Vector.toList_inj.mp h

/-- A format K operand is the whole input buffer, once the length check has passed (20_memory.md rule R57). -/
theorem toList_operand16 (inp : List Byte) (h : inp.length = 16) : (operand16 inp).toList = inp := by
  have : memRead inp 0 16 = inp := by rw [memRead, List.drop_zero, List.take_of_length_le (by omega)]
  rw [operand16, this, toList_blockOfList inp h]

theorem operand16_toList (b : Block) : operand16 b.toList = b := by
  exact Vector.toList_inj.mp (toList_operand16 b.toList (by simp))

@[simp] theorem lengthOk_iff (inp : List Byte) : lengthOk inp = true ↔ inp.length = 16 := by
  simp [lengthOk, Config.operandBytes]

@[simp] theorem blockByte_eq (b : Block) (i : Nat) (h : i < 16) : blockByte b i = b[i] := by
  simp [blockByte, h]

/-- The position inside a block counts modulo 8 across the counter's wrap (10_state.md rule R26). -/
theorem blockPos_succ (n : Word64) : blockPos (n + 1) = (blockPos n + 1) % 8 := by
  have h : (n + 1).toNat = (n.toNat + 1) % 2 ^ 64 := by rw [BitVec.toNat_add]; rfl
  unfold blockPos
  omega

@[simp] theorem length_bytes64 (w : Word64) : (bytes64 w).length = 8 := by simp [bytes64]

@[simp] theorem engClear_alg (e : Engine) : (engClear e).alg = e.alg := by cases e <;> simp [engClear, Engine.alg]

theorem engClear_eq_zero (e : Engine) : engClear e = Engine.zero e.alg := by
  cases e <;> simp [engClear, Engine.zero, Engine.alg]

@[simp] theorem engInit_alg (k n : Block) (e : Engine) : (engInit k n e).alg = e.alg := by cases e <;> simp [engInit, Engine.alg]

@[simp] theorem engAad_alg (n : Word64) (b : Byte) (e : Engine) : (engAad n b e).alg = e.alg := by cases e <;> simp [engAad, Engine.alg]

@[simp] theorem engCloseAad_alg (n : Word64) (e : Engine) : (engCloseAad n e).alg = e.alg := by cases e <;> simp [engCloseAad, Engine.alg]

@[simp] theorem engEnc_alg (n : Word64) (b : Byte) (e : Engine) : (engEnc n b e).1.alg = e.alg := by cases e <;> simp [engEnc, Engine.alg]

@[simp] theorem engDec_alg (n : Word64) (b : Byte) (e : Engine) : (engDec n b e).1.alg = e.alg := by cases e <;> simp [engDec, Engine.alg]

@[simp] theorem engFinal_alg (k : Block) (n : Word64) (e : Engine) : (engFinal k n e).1.alg = e.alg := by cases e <;> simp [engFinal, Engine.alg]

end Sys2Proof.Machine
end

