-- ==== Sys2Proof/Laws/Decode.lean ====
section
/-! SUPPORT. The fields of a command word and what the decoder answers. -/

namespace Sys2Proof

@[simp] theorem opField_append (op : Byte) (len : BitVec 24) : opField (op ++ len) = op := by
  refine BitVec.eq_of_getLsbD_eq fun i hi => ?_
  simp only [opField, BitVec.getLsbD_extractLsb', hi, decide_true, Bool.true_and]
  rw [BitVec.getLsbD_append]
  simp

@[simp] theorem lenField_append (op : Byte) (len : BitVec 24) : lenField (op ++ len) = len := by
  refine BitVec.eq_of_getLsbD_eq fun i hi => ?_
  simp only [lenField, BitVec.getLsbD_extractLsb', hi, decide_true, Bool.true_and]
  rw [BitVec.getLsbD_append]
  simp [hi]

/-- A command word is its two fields (30_encoding.md rule R71). -/
theorem word_eq_fields (cw : Word32) : (opField cw ++ lenField cw : Word32) = cw := by
  refine BitVec.eq_of_getLsbD_eq fun i hi => ?_
  rw [BitVec.getLsbD_append]
  split
  · simp [lenField, *]
  · have : 24 + (i - 24) = i := by omega
    have h : i - 24 < 8 := by omega
    simp [opField, this, h]

@[simp] theorem opField_word (i : Instr) : opField i.word = i.opcode := opField_append _ _

@[simp] theorem lenField_word (i : Instr) : lenField i.word = BitVec.ofNat 24 i.operand.length := lenField_append _ _

/-- `decodeTableWord` is the decoder on the table word's command. -/
theorem decodeTableWord_eq (nbits w : Nat) : decodeTableWord nbits w = (decode (tableCommand nbits w)).toOption := by
  have h : (tableCommand nbits w).inp.length = (lenField (tableCommand nbits w).cw).toNat := by simp [tableCommand]
  simp only [decodeTableWord, decode]
  split <;> simp_all [Except.toOption]

end Sys2Proof
end

