-- ==== Sys2Proof/Laws/State.lean ====
section
/-! SUPPORT. One lemma per field per update of the state, so that no proof unfolds a record update. -/

namespace Sys2Proof.Machine

@[simp] theorem State.respond_session (s : State) (r : Response) : (s.respond r).session = s.session := rfl

@[simp] theorem State.respond_pending (s : State) (r : Response) : (s.respond r).pending = s.pending := rfl

@[simp] theorem State.respond_responses (s : State) (r : Response) : (s.respond r).responses = s.responses ++ [r] := rfl

@[simp] theorem State.withSession_session (s : State) (x : Session) : (s.withSession x).session = x := rfl

@[simp] theorem State.withSession_pending (s : State) (x : Session) : (s.withSession x).pending = s.pending := rfl

@[simp] theorem State.withSession_responses (s : State) (x : Session) : (s.withSession x).responses = s.responses := rfl

@[simp] theorem State.withSession_self (s : State) : s.withSession s.session = s := rfl

@[simp] theorem State.withSession_withSession (s : State) (x y : Session) : (s.withSession x).withSession y = s.withSession y := rfl

@[simp] theorem State.respond_withSession (s : State) (r : Response) (x : Session) :
    (s.respond r).withSession x = (s.withSession x).respond r := rfl

@[simp] theorem Session.reset_engine (x : Session) : (x.reset).engine = engClear x.engine := rfl

@[simp] theorem Session.reset_phase (x : Session) : (x.reset).phase = .fresh := rfl

@[simp] theorem Session.reset_keySet (x : Session) : (x.reset).keySet = false := rfl

@[simp] theorem Session.reset_nonceSet (x : Session) : (x.reset).nonceSet = false := rfl

@[simp] theorem Session.reset_key (x : Session) : (x.reset).key = Block.zero := rfl

@[simp] theorem Session.reset_nonce (x : Session) : (x.reset).nonce = Block.zero := rfl

@[simp] theorem Session.reset_aadLen (x : Session) : (x.reset).aadLen = 0 := rfl

@[simp] theorem Session.reset_payLen (x : Session) : (x.reset).payLen = 0 := rfl

@[simp] theorem Session.reset_tag (x : Session) : (x.reset).tag = Block.zero := rfl

@[simp] theorem Session.loadKey_engine (x : Session) (k : Block) : (x.loadKey k).engine = x.engine := rfl

@[simp] theorem Session.loadKey_phase (x : Session) (k : Block) : (x.loadKey k).phase = if x.nonceSet then .keyAndNonceSet else x.phase := rfl

@[simp] theorem Session.loadKey_keySet (x : Session) (k : Block) : (x.loadKey k).keySet = true := rfl

@[simp] theorem Session.loadKey_nonceSet (x : Session) (k : Block) : (x.loadKey k).nonceSet = x.nonceSet := rfl

@[simp] theorem Session.loadKey_key (x : Session) (k : Block) : (x.loadKey k).key = k := rfl

@[simp] theorem Session.loadKey_nonce (x : Session) (k : Block) : (x.loadKey k).nonce = x.nonce := rfl

@[simp] theorem Session.loadKey_aadLen (x : Session) (k : Block) : (x.loadKey k).aadLen = x.aadLen := rfl

@[simp] theorem Session.loadKey_payLen (x : Session) (k : Block) : (x.loadKey k).payLen = x.payLen := rfl

@[simp] theorem Session.loadKey_tag (x : Session) (k : Block) : (x.loadKey k).tag = x.tag := rfl

@[simp] theorem Session.loadNonce_engine (x : Session) (n : Block) : (x.loadNonce n).engine = x.engine := rfl

@[simp] theorem Session.loadNonce_phase (x : Session) (n : Block) : (x.loadNonce n).phase = if x.keySet then .keyAndNonceSet else x.phase := rfl

@[simp] theorem Session.loadNonce_keySet (x : Session) (n : Block) : (x.loadNonce n).keySet = x.keySet := rfl

@[simp] theorem Session.loadNonce_nonceSet (x : Session) (n : Block) : (x.loadNonce n).nonceSet = true := rfl

@[simp] theorem Session.loadNonce_key (x : Session) (n : Block) : (x.loadNonce n).key = x.key := rfl

@[simp] theorem Session.loadNonce_nonce (x : Session) (n : Block) : (x.loadNonce n).nonce = n := rfl

@[simp] theorem Session.loadNonce_aadLen (x : Session) (n : Block) : (x.loadNonce n).aadLen = x.aadLen := rfl

@[simp] theorem Session.loadNonce_payLen (x : Session) (n : Block) : (x.loadNonce n).payLen = x.payLen := rfl

@[simp] theorem Session.loadNonce_tag (x : Session) (n : Block) : (x.loadNonce n).tag = x.tag := rfl

@[simp] theorem Session.absorbByte_engine (x : Session) (b : Byte) : (x.absorbByte b).engine = engAad x.aadLen b x.engine := rfl

@[simp] theorem Session.absorbByte_phase (x : Session) (b : Byte) : (x.absorbByte b).phase = x.phase := rfl

@[simp] theorem Session.absorbByte_keySet (x : Session) (b : Byte) : (x.absorbByte b).keySet = x.keySet := rfl

@[simp] theorem Session.absorbByte_nonceSet (x : Session) (b : Byte) : (x.absorbByte b).nonceSet = x.nonceSet := rfl

@[simp] theorem Session.absorbByte_key (x : Session) (b : Byte) : (x.absorbByte b).key = x.key := rfl

@[simp] theorem Session.absorbByte_nonce (x : Session) (b : Byte) : (x.absorbByte b).nonce = x.nonce := rfl

@[simp] theorem Session.absorbByte_aadLen (x : Session) (b : Byte) : (x.absorbByte b).aadLen = x.aadLen + 1 := rfl

@[simp] theorem Session.absorbByte_payLen (x : Session) (b : Byte) : (x.absorbByte b).payLen = x.payLen := rfl

@[simp] theorem Session.absorbByte_tag (x : Session) (b : Byte) : (x.absorbByte b).tag = x.tag := rfl

@[simp] theorem Session.encryptByte_engine (x : Session) (b : Byte) : ((x.encryptByte b).1).engine = (engEnc x.payLen b x.engine).1 := rfl

@[simp] theorem Session.encryptByte_phase (x : Session) (b : Byte) : ((x.encryptByte b).1).phase = x.phase := rfl

@[simp] theorem Session.encryptByte_keySet (x : Session) (b : Byte) : ((x.encryptByte b).1).keySet = x.keySet := rfl

@[simp] theorem Session.encryptByte_nonceSet (x : Session) (b : Byte) : ((x.encryptByte b).1).nonceSet = x.nonceSet := rfl

@[simp] theorem Session.encryptByte_key (x : Session) (b : Byte) : ((x.encryptByte b).1).key = x.key := rfl

@[simp] theorem Session.encryptByte_nonce (x : Session) (b : Byte) : ((x.encryptByte b).1).nonce = x.nonce := rfl

@[simp] theorem Session.encryptByte_aadLen (x : Session) (b : Byte) : ((x.encryptByte b).1).aadLen = x.aadLen := rfl

@[simp] theorem Session.encryptByte_payLen (x : Session) (b : Byte) : ((x.encryptByte b).1).payLen = x.payLen + 1 := rfl

@[simp] theorem Session.encryptByte_tag (x : Session) (b : Byte) : ((x.encryptByte b).1).tag = x.tag := rfl

@[simp] theorem Session.encryptByte_out (x : Session) (b : Byte) : (x.encryptByte b).2 = (engEnc x.payLen b x.engine).2 := rfl

@[simp] theorem Session.decryptByte_engine (x : Session) (b : Byte) : ((x.decryptByte b).1).engine = (engDec x.payLen b x.engine).1 := rfl

@[simp] theorem Session.decryptByte_phase (x : Session) (b : Byte) : ((x.decryptByte b).1).phase = x.phase := rfl

@[simp] theorem Session.decryptByte_keySet (x : Session) (b : Byte) : ((x.decryptByte b).1).keySet = x.keySet := rfl

@[simp] theorem Session.decryptByte_nonceSet (x : Session) (b : Byte) : ((x.decryptByte b).1).nonceSet = x.nonceSet := rfl

@[simp] theorem Session.decryptByte_key (x : Session) (b : Byte) : ((x.decryptByte b).1).key = x.key := rfl

@[simp] theorem Session.decryptByte_nonce (x : Session) (b : Byte) : ((x.decryptByte b).1).nonce = x.nonce := rfl

@[simp] theorem Session.decryptByte_aadLen (x : Session) (b : Byte) : ((x.decryptByte b).1).aadLen = x.aadLen := rfl

@[simp] theorem Session.decryptByte_payLen (x : Session) (b : Byte) : ((x.decryptByte b).1).payLen = x.payLen + 1 := rfl

@[simp] theorem Session.decryptByte_tag (x : Session) (b : Byte) : ((x.decryptByte b).1).tag = x.tag := rfl

@[simp] theorem Session.decryptByte_out (x : Session) (b : Byte) : (x.decryptByte b).2 = (engDec x.payLen b x.engine).2 := rfl

@[simp] theorem Session.finalize_engine (x : Session) : (x.finalize).engine = (engFinal x.key x.payLen x.engine).1 := rfl

@[simp] theorem Session.finalize_phase (x : Session) : (x.finalize).phase = .finalized := rfl

@[simp] theorem Session.finalize_keySet (x : Session) : (x.finalize).keySet = x.keySet := rfl

@[simp] theorem Session.finalize_nonceSet (x : Session) : (x.finalize).nonceSet = x.nonceSet := rfl

@[simp] theorem Session.finalize_key (x : Session) : (x.finalize).key = x.key := rfl

@[simp] theorem Session.finalize_nonce (x : Session) : (x.finalize).nonce = x.nonce := rfl

@[simp] theorem Session.finalize_aadLen (x : Session) : (x.finalize).aadLen = x.aadLen := rfl

@[simp] theorem Session.finalize_payLen (x : Session) : (x.finalize).payLen = x.payLen := rfl

@[simp] theorem Session.finalize_tag (x : Session) : (x.finalize).tag = (engFinal x.key x.payLen x.engine).2 := rfl

theorem Session.start_engine (x : Session) :
    x.start.engine = if x.phase = .keyAndNonceSet then engInit x.key x.nonce x.engine else x.engine := by
  unfold Session.start; split <;> rfl

theorem Session.start_phase (x : Session) :
    x.start.phase = if x.phase = .keyAndNonceSet then .absorbingAad else x.phase := by
  unfold Session.start; split <;> rfl

@[simp] theorem Session.start_keySet (x : Session) : x.start.keySet = x.keySet := by
  unfold Session.start; split <;> rfl

@[simp] theorem Session.start_nonceSet (x : Session) : x.start.nonceSet = x.nonceSet := by
  unfold Session.start; split <;> rfl

@[simp] theorem Session.start_key (x : Session) : x.start.key = x.key := by
  unfold Session.start; split <;> rfl

@[simp] theorem Session.start_nonce (x : Session) : x.start.nonce = x.nonce := by
  unfold Session.start; split <;> rfl

theorem Session.start_aadLen (x : Session) :
    x.start.aadLen = if x.phase = .keyAndNonceSet then 0 else x.aadLen := by
  unfold Session.start; split <;> rfl

theorem Session.start_payLen (x : Session) :
    x.start.payLen = if x.phase = .keyAndNonceSet then 0 else x.payLen := by
  unfold Session.start; split <;> rfl

@[simp] theorem Session.start_tag (x : Session) : x.start.tag = x.tag := by
  unfold Session.start; split <;> rfl

theorem Session.closeAad_engine (x : Session) :
    x.closeAad.engine = if x.phase = .absorbingAad then engCloseAad x.aadLen x.engine else x.engine := by
  unfold Session.closeAad; split <;> rfl

theorem Session.closeAad_phase (x : Session) :
    x.closeAad.phase = if x.phase = .absorbingAad then .processingPayload else x.phase := by
  unfold Session.closeAad; split <;> rfl

@[simp] theorem Session.closeAad_keySet (x : Session) : x.closeAad.keySet = x.keySet := by
  unfold Session.closeAad; split <;> rfl

@[simp] theorem Session.closeAad_nonceSet (x : Session) : x.closeAad.nonceSet = x.nonceSet := by
  unfold Session.closeAad; split <;> rfl

@[simp] theorem Session.closeAad_key (x : Session) : x.closeAad.key = x.key := by
  unfold Session.closeAad; split <;> rfl

@[simp] theorem Session.closeAad_nonce (x : Session) : x.closeAad.nonce = x.nonce := by
  unfold Session.closeAad; split <;> rfl

@[simp] theorem Session.closeAad_aadLen (x : Session) : x.closeAad.aadLen = x.aadLen := by
  unfold Session.closeAad; split <;> rfl

@[simp] theorem Session.closeAad_payLen (x : Session) : x.closeAad.payLen = x.payLen := by
  unfold Session.closeAad; split <;> rfl

@[simp] theorem Session.closeAad_tag (x : Session) : x.closeAad.tag = x.tag := by
  unfold Session.closeAad; split <;> rfl

/-- `Start()` does nothing outside `KeyAndNonceSet` (40_controller.md rule R92). -/
theorem Session.start_of_ne (x : Session) (h : x.phase ≠ .keyAndNonceSet) : x.start = x := by
  simp [Session.start, h]

/-- `CloseAad()` does nothing outside `AbsorbingAAD` (40_controller.md rule R92). -/
theorem Session.closeAad_of_ne (x : Session) (h : x.phase ≠ .absorbingAad) : x.closeAad = x := by
  simp [Session.closeAad, h]

@[simp] theorem Session.start_alg (x : Session) : x.start.alg = x.alg := by
  unfold Session.alg; rw [Session.start_engine]; split <;> simp

@[simp] theorem Session.closeAad_alg (x : Session) : x.closeAad.alg = x.alg := by
  unfold Session.alg; rw [Session.closeAad_engine]; split <;> simp

/-! ## The byte loops -/

@[simp] theorem Session.absorbBytes_nil (x : Session) : x.absorbBytes [] = x := rfl

@[simp] theorem Session.absorbBytes_cons (x : Session) (b : Byte) (l : List Byte) :
    x.absorbBytes (b :: l) = (x.absorbByte b).absorbBytes l := rfl

theorem Session.absorbBytes_append (x : Session) (l m : List Byte) :
    x.absorbBytes (l ++ m) = (x.absorbBytes l).absorbBytes m := List.foldl_append

@[simp] theorem Session.absorbBytes_phase (x : Session) (l : List Byte) : (x.absorbBytes l).phase = x.phase := by
  induction l generalizing x with
  | nil => rfl
  | cons b l ih => simp [ih]

@[simp] theorem Session.absorbBytes_keySet (x : Session) (l : List Byte) : (x.absorbBytes l).keySet = x.keySet := by
  induction l generalizing x with
  | nil => rfl
  | cons b l ih => simp [ih]

@[simp] theorem Session.absorbBytes_nonceSet (x : Session) (l : List Byte) : (x.absorbBytes l).nonceSet = x.nonceSet := by
  induction l generalizing x with
  | nil => rfl
  | cons b l ih => simp [ih]

@[simp] theorem Session.absorbBytes_key (x : Session) (l : List Byte) : (x.absorbBytes l).key = x.key := by
  induction l generalizing x with
  | nil => rfl
  | cons b l ih => simp [ih]

@[simp] theorem Session.absorbBytes_nonce (x : Session) (l : List Byte) : (x.absorbBytes l).nonce = x.nonce := by
  induction l generalizing x with
  | nil => rfl
  | cons b l ih => simp [ih]

@[simp] theorem Session.absorbBytes_payLen (x : Session) (l : List Byte) : (x.absorbBytes l).payLen = x.payLen := by
  induction l generalizing x with
  | nil => rfl
  | cons b l ih => simp [ih]

@[simp] theorem Session.absorbBytes_tag (x : Session) (l : List Byte) : (x.absorbBytes l).tag = x.tag := by
  induction l generalizing x with
  | nil => rfl
  | cons b l ih => simp [ih]

@[simp] theorem Session.absorbBytes_alg (x : Session) (l : List Byte) : (x.absorbBytes l).alg = x.alg := by
  induction l generalizing x with
  | nil => rfl
  | cons b l ih => rw [Session.absorbBytes_cons, ih]; simp [Session.alg]

section Payload
variable (f : Session → Byte → Session × Byte)

@[simp] theorem payloadBytes_nil (x : Session) : payloadBytes f x [] = (x, []) := rfl

@[simp] theorem payloadBytes_cons (x : Session) (b : Byte) (l : List Byte) :
    payloadBytes f x (b :: l) = ((payloadBytes f (f x b).1 l).1, (f x b).2 :: (payloadBytes f (f x b).1 l).2) := rfl

/-- A payload loop over a string is the loop over its parts, in order (40_controller.md rule R103). -/
theorem payloadBytes_append (x : Session) (l m : List Byte) :
    payloadBytes f x (l ++ m) =
      ((payloadBytes f (payloadBytes f x l).1 m).1, (payloadBytes f x l).2 ++ (payloadBytes f (payloadBytes f x l).1 m).2) := by
  induction l generalizing x with
  | nil => rfl
  | cons b l ih => simp [ih]

/-- Output length equals input length (20_memory.md rule R51). -/
@[simp] theorem length_payloadBytes (x : Session) (l : List Byte) : (payloadBytes f x l).2.length = l.length := by
  induction l generalizing x with
  | nil => rfl
  | cons b l ih => simp [ih]

/-- What one byte's operation keeps, the loop keeps. -/
theorem payloadBytes_keeps {α : Type} (g : Session → α) (h : ∀ x b, g (f x b).1 = g x) (x : Session) (l : List Byte) :
    g (payloadBytes f x l).1 = g x := by
  induction l generalizing x with
  | nil => rfl
  | cons b l ih => simp [ih, h]

end Payload

end Sys2Proof.Machine
end

