-- ==== Sys2Proof/Laws/Exec.lean ====
section
/-! SUPPORT. Everything a command can do, said once: it answers exactly one response, and either raises an error, which changes no
session state, or finishes with the session its rule gives. -/

namespace Sys2Proof.Machine

/-- What `raise` does (60_exceptions.md rule R195). -/
theorem raise_eq (e : ErrorKind) (s : State) : raise e s = .next (s.respond { status := e.status, out := [] }) := rfl

/-- What `finish` does. -/
theorem finish_eq (x : Session) (out : List Byte) (s : State) :
    finish x out s = .next ((s.withSession x).respond { status := .ok, out := out }) := rfl

/-- RESET has one case (40_controller.md rule R93). -/
theorem exec_reset (s : State) : exec .reset s = finish s.session.reset [] s := rfl

/-- SETKEY: the three cases of rule R94. -/
theorem exec_setkey (inp : List Byte) (s : State) :
    exec (.setkey inp) s =
      if inp.length ≠ 16 then raise .invalidLength s
      else if s.session.phase.acceptsKeyNonce = false then raise .invalidState s
      else finish (s.session.loadKey (operand16 inp)) [] s := by
  simp only [exec, execSetkey]
  by_cases h : inp.length = 16 <;> simp [h, lengthOk, Config.operandBytes]

/-- SETNONCE: the three cases of rule R95. -/
theorem exec_setnonce (inp : List Byte) (s : State) :
    exec (.setnonce inp) s =
      if inp.length ≠ 16 then raise .invalidLength s
      else if s.session.phase.acceptsKeyNonce = false then raise .invalidState s
      else finish (s.session.loadNonce (operand16 inp)) [] s := by
  simp only [exec, execSetnonce]
  by_cases h : inp.length = 16 <;> simp [h, lengthOk, Config.operandBytes]

/-- ABSORB_AAD: the two cases of rule R96. -/
theorem exec_absorbAad (inp : List Byte) (s : State) :
    exec (.absorbAad inp) s =
      if s.session.phase.acceptsAad = false then raise .invalidState s
      else finish (s.session.start.absorbBytes inp) [] s := by
  simp [exec, execAbsorbAad]

/-- ENCRYPT: the two cases of rule R97. -/
theorem exec_encrypt (inp : List Byte) (s : State) :
    exec (.encrypt inp) s =
      if s.session.phase.acceptsPayload = false then raise .invalidState s
      else finish (payloadBytes Session.encryptByte s.session.start.closeAad inp).1
        (payloadBytes Session.encryptByte s.session.start.closeAad inp).2 s := by
  simp [exec, execEncrypt]

/-- DECRYPT: the two cases of rule R98. -/
theorem exec_decrypt (inp : List Byte) (s : State) :
    exec (.decrypt inp) s =
      if s.session.phase.acceptsPayload = false then raise .invalidState s
      else finish (payloadBytes Session.decryptByte s.session.start.closeAad inp).1
        (payloadBytes Session.decryptByte s.session.start.closeAad inp).2 s := by
  simp [exec, execDecrypt]

/-- COMPUTE_TAG: the two cases of rule R99. -/
theorem exec_computeTag (s : State) :
    exec .computeTag s =
      if s.session.phase.acceptsPayload = false then raise .invalidState s
      else finish s.session.start.closeAad.finalize s.session.start.closeAad.finalize.tag.toList s := by
  simp [exec, execComputeTag]

/-- VERIFY_TAG: the four cases of rule R100. -/
theorem exec_verifyTag (inp : List Byte) (s : State) :
    exec (.verifyTag inp) s =
      if inp.length ≠ 16 then raise .invalidLength s
      else if s.session.phase.acceptsVerify = false then raise .invalidState s
      else if tagDifference s.session.tag inp ≠ 0 then raise .tagMismatch s
      else finish s.session [] s := by
  simp only [exec, execVerifyTag]
  by_cases h : inp.length = 16 <;> simp [h, lengthOk, Config.operandBytes]

/-- What the machine's step is on a command the decoder accepts. -/
theorem step_cons (s : State) (c : Command) (rest : List Command) (h : s.pending = c :: rest) :
    step s = match decode c with
      | .error e => .refused (refusalOf e)
      | .ok i => exec i { s with pending := rest } := by
  simp only [step, State.fetch, h]
  cases decode c <;> rfl

/-- `runSteps` is the host's run of the machine. -/
theorem core_run_eq (k : Nat) (s : State) : Sys2Proof.core.run k s = runSteps k s := by
  induction k generalizing s with
  | zero => rfl
  | succ k ih =>
    have e := Host.Core.run.eq_2 Sys2Proof.core s k
    have hs : Sys2Proof.core.step s = step s := rfl
    rw [hs] at e
    unfold runSteps
    cases h : step s with
    | next t => rw [h] at e; exact e.trans (ih t)
    | fault r => rw [h] at e; exact e
    | refused r => rw [h] at e; exact e

@[simp] theorem execAll_nil (s : State) : execAll [] s = .next s := rfl

theorem execAll_cons (i : Instr) (is : List Instr) (s t : State) (h : exec i s = .next t) :
    execAll (i :: is) s = execAll is t := by
  simp only [execAll, h]

theorem runSteps_succ (k : Nat) (s t : State) (h : step s = .next t) : runSteps (k + 1) s = runSteps k t := by
  simp only [runSteps, h]

end Sys2Proof.Machine
end

