-- ==== Sys2Proof/Laws/Loops.lean ====
section
/-! SUPPORT. What the byte loops, the tag comparison and a whole command can do, said once: each is the plain description of
Safety.lean or a short list of cases. -/

namespace Sys2Proof.Machine

/-- ABSORB_AAD's loop changes the engine and AADLEN, nothing else. -/
theorem absorbBytes_eq (l : List Byte) (x : Session) :
    x.absorbBytes l = { x with
      engine := aadEngine x.aadLen x.engine l, aadLen := x.aadLen + BitVec.ofNat 64 l.length } := by
  induction l generalizing x with
  | nil => simp [aadEngine]
  | cons b l ih =>
    rw [Session.absorbBytes_cons, ih]
    simp [Session.absorbByte, aadEngine, BitVec.ofNat_add]
    ac_rfl

/-- ENCRYPT's loop changes the engine and PAYLEN, nothing else. -/
theorem payloadBytes_encrypt_eq (l : List Byte) (x : Session) :
    payloadBytes Session.encryptByte x l =
      ({ x with
          engine := (payloadEngine engEnc x.payLen x.engine l).1, payLen := x.payLen + BitVec.ofNat 64 l.length },
        (payloadEngine engEnc x.payLen x.engine l).2) := by
  induction l generalizing x with
  | nil => simp [payloadEngine]
  | cons b l ih =>
    rw [payloadBytes_cons, ih]
    simp [Session.encryptByte, payloadEngine, BitVec.ofNat_add]
    ac_rfl

/-- DECRYPT's loop changes the engine and PAYLEN, nothing else. -/
theorem payloadBytes_decrypt_eq (l : List Byte) (x : Session) :
    payloadBytes Session.decryptByte x l =
      ({ x with
          engine := (payloadEngine engDec x.payLen x.engine l).1, payLen := x.payLen + BitVec.ofNat 64 l.length },
        (payloadEngine engDec x.payLen x.engine l).2) := by
  induction l generalizing x with
  | nil => simp [payloadEngine]
  | cons b l ih =>
    rw [payloadBytes_cons, ih]
    simp [Session.decryptByte, payloadEngine, BitVec.ofNat_add]
    ac_rfl

/-- VERIFY_TAG's comparison: it is zero exactly when all sixteen bytes agree (40_controller.md rule R100). -/
theorem tagDifference_eq_zero (t : Block) (inp : List Byte) (h : inp.length = 16) :
    tagDifference t inp = 0 ↔ inp = t.toList := by
  have key : ∀ n, n ≤ 16 →
      (loop n (fun i acc => acc ||| (blockByte t i ^^^ inp.getD i 0)) 0 = 0 ↔
        ∀ i, i < n → blockByte t i = inp.getD i 0) := by
    intro n
    induction n with
    | zero => simp
    | succ n ih =>
      intro hn
      have hor (a b : Byte) : a ||| b = 0 ↔ a = 0 ∧ b = 0 := BitVec.or_eq_zero_iff
      have hxor (a b : Byte) : a ^^^ b = 0 ↔ a = b := BitVec.xor_eq_zero_iff
      rw [loop_succ, hor, ih (by omega), hxor]
      constructor
      · rintro ⟨h1, h2⟩ i hi
        rcases Nat.lt_succ_iff_lt_or_eq.mp hi with hlt | rfl
        exacts [h1 i hlt, h2]
      · exact fun hall => ⟨fun i hi => hall i (by omega), hall n (by omega)⟩
  rw [tagDifference, key 16 (by omega)]
  constructor
  · intro hh
    refine List.ext_getElem (by simp [h]) fun i h1 h2 => ?_
    have := hh i (by omega)
    rw [blockByte_eq _ _ (by omega)] at this
    simp [this, h1]
  · rintro rfl i -
    rfl

/-- The two ways a command can end: with an error, which changes no session state and outputs nothing (60_exceptions.md rule
R195), or with `OK` and the session and the output of its rule. -/
theorem exec_cases (i : Instr) (s t : State) (h : exec i s = .next t) :
    (∃ e : ErrorKind, t = s.respond ⟨e.status, []⟩) ∨
      ∃ (x : Session) (out : List Byte), t = (s.withSession x).respond ⟨.ok, out⟩ := by
  cases i <;>
    simp only [exec_reset, exec_setkey, exec_setnonce, exec_absorbAad, exec_encrypt, exec_decrypt, exec_computeTag,
      exec_verifyTag, finish_eq, raise_eq] at h <;>
    (repeat' split at h) <;> cases h <;> first | exact .inl ⟨_, rfl⟩ | exact .inr ⟨_, _, rfl⟩

/-- A command always completes (60_exceptions.md rule R197). -/
theorem exec_next (i : Instr) (s : State) : ∃ t, exec i s = .next t := by
  cases i <;>
    simp only [exec_reset, exec_setkey, exec_setnonce, exec_absorbAad, exec_encrypt, exec_decrypt, exec_computeTag,
      exec_verifyTag, finish_eq, raise_eq] <;>
    (repeat' split) <;> exact ⟨_, rfl⟩

/-- What a command does to the session, and what it answers, depend on the session alone (20_memory.md rule R61). -/
theorem exec_local (i : Instr) (s u : State) (h : s.session = u.session) :
    ∃ (x : Session) (r : Response), exec i s = .next ((s.withSession x).respond r) ∧
      exec i u = .next ((u.withSession x).respond r) := by
  cases i <;>
    simp only [exec_reset, exec_setkey, exec_setnonce, exec_absorbAad, exec_encrypt, exec_decrypt, exec_computeTag,
      exec_verifyTag, finish_eq, raise_eq, h] <;>
    (repeat' split) <;> first | exact ⟨_, _, rfl, rfl⟩ | exact ⟨u.session, _, by rw [← h]; rfl, rfl⟩

/-- The same of a list of commands, each executed after the one before. -/
theorem execAll_local (is : List Instr) (s u : State) (h : s.session = u.session) :
    ∃ (t v : State) (rs : List Response), execAll is s = .next t ∧ execAll is u = .next v ∧
      t.responses = s.responses ++ rs ∧ v.responses = u.responses ++ rs ∧ t.session = v.session := by
  induction is generalizing s u with
  | nil => exact ⟨s, u, [], rfl, rfl, by simp, by simp, h⟩
  | cons i is ih =>
    obtain ⟨x, r, hs, hu⟩ := exec_local i s u h
    obtain ⟨t, v, rs, ht, hv, hts, hvs, e⟩ := ih ((s.withSession x).respond r) ((u.withSession x).respond r) rfl
    exact ⟨t, v, r :: rs, by rw [execAll_cons i is s _ hs, ht], by rw [execAll_cons i is u _ hu, hv],
      by simp [hts], by simp [hvs], e⟩

end Sys2Proof.Machine
end

