-- ==== Sys2Proof/Laws/PerInstr.lean ====
section
/-! SUPPORT. The family `Fields`: the command word of every command holds its opcode of 30_encoding.md rule R73 in bits 31 to 24 and
its operand's length in bits 23 to 0 (rule R71), and the operand bytes follow it unchanged (rule R78). -/

namespace Sys2Proof.Laws.Fields

/-- What the family says of a command. -/
def Statement (i : Instr) : Prop :=
  opField (encode i).cw = i.opcode ∧ (lenField (encode i).cw).toNat = i.operand.length % 2 ^ 24 ∧
    (encode i).inp = i.operand

theorem of_encode (i : Instr) : Statement i := ⟨opField_word i, by simp [encode], rfl⟩

theorem reset : Statement .reset := of_encode _
theorem setkey (inp : List Byte) : Statement (.setkey inp) := of_encode _
theorem setnonce (inp : List Byte) : Statement (.setnonce inp) := of_encode _
theorem absorbAad (inp : List Byte) : Statement (.absorbAad inp) := of_encode _
theorem encrypt (inp : List Byte) : Statement (.encrypt inp) := of_encode _
theorem decrypt (inp : List Byte) : Statement (.decrypt inp) := of_encode _
theorem computeTag : Statement .computeTag := of_encode _
theorem verifyTag (inp : List Byte) : Statement (.verifyTag inp) := of_encode _

end Sys2Proof.Laws.Fields
end

