-- ==== Sys2Proof/Tests/Slice0.lean ====
section
/-! SUPPORT. The package's own tests. Every expected value is the spec's (95_test_vectors.md, the vector named at each test) or worked by
hand from the rule named. The last part shows, for every obligation that has hypotheses, data that meet them together. -/

namespace Sys2Proof.Tests
open Sys2Proof Sys2Proof.Machine

/-! ## Helpers -/

/-- The response a command adds. -/
def answer (i : Instr) (s : State) : Option Response :=
  match exec i s with
  | .next t => t.responses.getLast?
  | _ => none

/-- The session a command leaves. -/
def after (i : Instr) (s : State) : Option Session :=
  match exec i s with
  | .next t => some t.session
  | _ => none

/-- The outcome of one machine step on a table word placed at reset: the response word, or the refusal. -/
def stepWord (w : Nat) : Option Word32 × Option Refusal :=
  match step (State.reset.withFetchWord 32 w) with
  | .next t => (t.responses.getLast?.map Response.rw, none)
  | .refused r => (none, some r)
  | .fault r => nomatch r

/-- 95_test_vectors.md's `K16`: the bytes 00 to 0F. -/
def k16 : List Byte := [0x00, 0x01, 0x02, 0x03, 0x04, 0x05, 0x06, 0x07, 0x08, 0x09, 0x0A, 0x0B, 0x0C, 0x0D, 0x0E, 0x0F]

/-- Sixteen zero bytes. -/
def z16 : List Byte := List.replicate 16 0

/-- A machine of the algorithm `a` in the phase `p`, key and nonce `K16` when past `Fresh`. -/
def at_ (a : Alg) (p : Phase) : State :=
  { State.create a with
    session := { Session.created a with
      phase := p, keySet := p != .fresh, nonceSet := p != .fresh
      key := if p = .fresh then Block.zero else blockOfList k16
      nonce := if p = .fresh then Block.zero else blockOfList k16 } }

/-- The register after `EngInit`, key and nonce zero (V12). -/
def s12 : AcornReg := 0x1F76F2D0AA3AB351A2169EA214673A6BB9B8C4F682C78BC4204A3AA2D05E42539DEF4FC67B

/-- The register after `EngCloseAad`, key and nonce zero (V12). -/
def s12c : AcornReg := 0x1C3CCBFD0F9E0AA9114898A4761D1A679B62F593947270A15935E204B1427FB015DDBB23E0

/-! ## Well-formedness: an operand of 2^24 bytes does not fit `LEN`, one of 2^24 - 1 bytes does -/

/-- An operand one byte too long. -/
def tooLong : List Byte := List.replicate 16777216 0
theorem length_tooLong : tooLong.length = 16777216 := List.length_replicate
/-- The largest operand (V26, `0x04FFFFFF`). -/
def longest : List Byte := List.replicate 16777215 0
theorem length_longest : longest.length = 16777215 := List.length_replicate

theorem test_wf_setkey : ¬(Instr.setkey tooLong).WellFormed ∧ (Instr.setkey longest).WellFormed := by
  simp only [Instr.WellFormed, Instr.operand, Config.operandLimit, length_tooLong, length_longest]; decide
theorem test_wf_setnonce : ¬(Instr.setnonce tooLong).WellFormed ∧ (Instr.setnonce longest).WellFormed := by
  simp only [Instr.WellFormed, Instr.operand, Config.operandLimit, length_tooLong, length_longest]; decide
theorem test_wf_absorbAad : ¬(Instr.absorbAad tooLong).WellFormed ∧ (Instr.absorbAad longest).WellFormed := by
  simp only [Instr.WellFormed, Instr.operand, Config.operandLimit, length_tooLong, length_longest]; decide
theorem test_wf_encrypt : ¬(Instr.encrypt tooLong).WellFormed ∧ (Instr.encrypt longest).WellFormed := by
  simp only [Instr.WellFormed, Instr.operand, Config.operandLimit, length_tooLong, length_longest]; decide
theorem test_wf_decrypt : ¬(Instr.decrypt tooLong).WellFormed ∧ (Instr.decrypt longest).WellFormed := by
  simp only [Instr.WellFormed, Instr.operand, Config.operandLimit, length_tooLong, length_longest]; decide
theorem test_wf_verifyTag : ¬(Instr.verifyTag tooLong).WellFormed ∧ (Instr.verifyTag longest).WellFormed := by
  simp only [Instr.WellFormed, Instr.operand, Config.operandLimit, length_tooLong, length_longest]; decide
theorem test_wf_noOperand : Instr.reset.WellFormed ∧ Instr.computeTag.WellFormed := by decide

/-! ## Decoding (V26; 30_encoding.md rules R71, R73, R76). `CW` is written byte by byte: `OP`, then `LEN`'s three bytes. -/

theorem test_decode_reset : decode ⟨0b00000000_00000000_00000000_00000000, []⟩ = .ok .reset := by decide
theorem test_decode_setkey : decode ⟨0b00000001_00000000_00000000_00010000, k16⟩ = .ok (.setkey k16) := by decide
theorem test_decode_setkey_empty : decode ⟨0x01000000, []⟩ = .ok (.setkey []) := by decide
theorem test_decode_setnonce : decode ⟨0b00000010_00000000_00000000_00010000, k16⟩ = .ok (.setnonce k16) := by decide
theorem test_decode_absorbAad : decode ⟨0b00000011_00000000_00000000_00000010, [0xA1, 0xA2]⟩ = .ok (.absorbAad [0xA1, 0xA2]) := by
  decide
theorem test_decode_encrypt : decode ⟨0b00000100_00000000_00000000_00000001, [0x2A]⟩ = .ok (.encrypt [0x2A]) := by decide
theorem test_decode_decrypt : decode ⟨0b00000101_00000000_00000000_00010000, k16⟩ = .ok (.decrypt k16) := by decide
theorem test_decode_computeTag : decode ⟨0b00000110_00000000_00000000_00000000, []⟩ = .ok .computeTag := by decide
theorem test_decode_verifyTag : decode ⟨0b00000111_00000000_00000000_00010000, k16⟩ = .ok (.verifyTag k16) := by decide
theorem test_decode_reset_reserved : decode ⟨0x00000001, [0]⟩ = .error .reservedLength := by decide
theorem test_decode_computeTag_reserved : decode ⟨0x06000010, k16⟩ = .error .reservedLength := by decide
theorem test_decode_op08 : decode ⟨0x08000000, []⟩ = .error .reservedOpcode := by decide
theorem test_decode_opFF : decode ⟨0xFF000010, k16⟩ = .error .reservedOpcode := by decide
theorem test_decode_framing : decode ⟨0x04000002, [0x2A]⟩ = .error .framing := by decide
theorem test_encode_encrypt : encode (.encrypt [1, 2, 3]) = ⟨0x04000003, [1, 2, 3]⟩ := by decide
theorem test_encode_long : (Instr.encrypt longest).word = 0x04FFFFFF := by
  simp only [Instr.word, Instr.opcode, Instr.operand, length_longest]; decide

/-! ## The step on a word placed at reset (V26, V27; P4 line 2) -/

theorem test_step_reset : stepWord 0x00000000 = (some 0x00000000, none) := by decide
theorem test_step_setkey : stepWord 0x01000010 = (some 0x00000000, none) := by decide
theorem test_step_setkey15 : stepWord 0x0100000F = (some 0x01000000, none) := by decide
theorem test_step_encrypt : stepWord 0x04000001 = (some 0x02000000, none) := by decide
theorem test_step_reserved : stepWord 0x08000000 = (none, some .reservedOpcode) := by decide
theorem test_step_reservedLength : stepWord 0x06000010 = (none, some .reservedLength) := by decide

/-! ## The assembler (30_encoding.md rules R78, R79) -/

theorem test_asm_line : assembleLine "SETKEY 000aFF -> InvalidLength ; too short".toList =
    some (.commands [.setkey [0x00, 0x0A, 0xFF]]) := by decide
theorem test_asm_empty_operand : assembleLine "ABSORB_AAD -".toList = some (.commands [.absorbAad []]) := by decide
theorem test_asm_heading : assembleLine "ALG ASCON128".toList = some (.algorithm .ascon128) := by decide
theorem test_asm_unknown : assembleLine "SETKEY".toList = none := by decide
theorem test_asm_pseudo : (assembleLine "AEAD_ENCRYPT 00, 01, -, 05".toList).map AsmLine.emit =
    some [⟨0x00000000, []⟩, ⟨0x01000001, [0]⟩, ⟨0x02000001, [1]⟩, ⟨0x03000000, []⟩, ⟨0x04000001, [5]⟩, ⟨0x06000000, []⟩] := by
  decide

/-! ## The commands, one step each -/

/-- V28, and `ALG` is kept (40_controller.md rule R93). -/
theorem test_reset_clears : after .reset (at_ .ascon128 .finalized) = some (Session.created .ascon128) := by decide +kernel
theorem test_reset_answers : answer .reset (at_ .acorn128 .finalized) = some ⟨.ok, []⟩ := by decide +kernel

/-- V20: with no nonce yet, SETKEY leaves `Fresh`. -/
theorem test_setkey_first : (after (.setkey k16) (at_ .acorn128 .fresh)).map (fun x => (x.phase, x.keySet, x.nonceSet, x.key.toList)) =
    some (.fresh, true, false, k16) := by decide +kernel
/-- V21, first row: the length is checked before the phase. -/
theorem test_setkey_priority : answer (.setkey (List.replicate 15 0)) (at_ .acorn128 .finalized) = some ⟨.invalidLength, []⟩ := by
  decide +kernel

/-- V20: with the key set, SETNONCE gives `KeyAndNonceSet`. -/
theorem test_setnonce_second :
    (after (.setnonce k16) { State.create .acorn128 with session := { Session.created .acorn128 with keySet := true } }).map
      (fun x => (x.phase, x.nonceSet, x.nonce.toList, x.key)) = some (.keyAndNonceSet, true, k16, Block.zero) := by decide +kernel
/-- V20: SETNONCE in `ProcessingPayload`. -/
theorem test_setnonce_late : answer (.setnonce k16) (at_ .ascon128 .processingPayload) = some ⟨.invalidState, []⟩ := by decide +kernel

/-- V36: after three bytes only the rate word changes. -/
theorem test_absorbAad_partial :
    (after (.absorbAad [0, 1, 2]) (at_ .ascon128 .keyAndNonceSet)).map (fun x => (x.engine, x.aadLen, x.phase)) =
      some (.ascon ⟨0xBC820DBEF3A1651B, 0x487A66865036B909, 0xA031B0C5810C1CD6, 0xDD7CE72083702217, 0x9B17156EDE557CE7⟩, 3,
        .absorbingAad) := by decide +kernel
/-- V24: ABSORB_AAD after the payload has begun. -/
theorem test_absorbAad_late : answer (.absorbAad [0]) (at_ .ascon128 .processingPayload) = some ⟨.invalidState, []⟩ := by decide +kernel

/-- V38, row 1: initialisation, the close of the empty associated data and one byte, in one command. -/
theorem test_encrypt_first : answer (.encrypt [0x00]) (at_ .ascon128 .keyAndNonceSet) = some ⟨.ok, [0xBC]⟩ := by decide +kernel
/-- V13, row 4: ciphertext `D5483E07` of `FFFFFFFF`, from the register of V12 after `EngCloseAad`. -/
theorem test_encrypt_acorn :
    answer (.encrypt [0xFF, 0xFF, 0xFF, 0xFF])
      { State.create .acorn128 with
        session := { Session.created .acorn128 with phase := .processingPayload, engine := .acorn s12c } } =
      some ⟨.ok, [0xD5, 0x48, 0x3E, 0x07]⟩ := by decide +kernel

/-- V36: `DECRYPT F19D28E0F2` returns `0001020304`, from the state after `ABSORB_AAD 000102`. -/
theorem test_decrypt_partial :
    answer (.decrypt [0xF1, 0x9D, 0x28, 0xE0, 0xF2])
      { State.create .ascon128 with
        session := { Session.created .ascon128 with
          phase := .absorbingAad, aadLen := 3
          engine := .ascon ⟨0xBC820DBEF3A1651B, 0x487A66865036B909, 0xA031B0C5810C1CD6, 0xDD7CE72083702217, 0x9B17156EDE557CE7⟩ } } =
      some ⟨.ok, [0x00, 0x01, 0x02, 0x03, 0x04]⟩ := by decide +kernel
/-- V20: DECRYPT in `Finalized`. -/
theorem test_decrypt_late : answer (.decrypt [0]) (at_ .ascon128 .finalized) = some ⟨.invalidState, []⟩ := by decide +kernel

/-- V30: the tag of the empty operation, and the phase. -/
theorem test_computeTag_empty :
    answer .computeTag (at_ .ascon128 .keyAndNonceSet) =
      some ⟨.ok, [0xE3, 0x55, 0x15, 0x9F, 0x29, 0x29, 0x11, 0xF7, 0x94, 0xCB, 0x14, 0x32, 0xA0, 0x10, 0x3A, 0x8A]⟩ := by decide +kernel
/-- V7: the second COMPUTE_TAG. -/
theorem test_computeTag_twice : answer .computeTag (at_ .ascon128 .finalized) = some ⟨.invalidState, []⟩ := by decide +kernel

/-- V25: a candidate that differs in the last bit of the last byte (the tag here is sixteen zero bytes). -/
theorem test_verifyTag_lastBit : answer (.verifyTag (List.replicate 15 0 ++ [1])) (at_ .acorn128 .finalized) = some ⟨.tagMismatch, []⟩ := by
  decide +kernel
/-- V25: repeated verification leaves `Finalized`. -/
theorem test_verifyTag_ok : answer (.verifyTag z16) (at_ .acorn128 .finalized) = some ⟨.ok, []⟩ ∧
    after (.verifyTag z16) (at_ .acorn128 .finalized) = some (at_ .acorn128 .finalized).session := by decide +kernel

/-! ## The engines -/

/-- V10, rows 4 and 5: the all-ones register. -/
theorem test_acornStep_ones : acornStep false true true (BitVec.allOnes 293) = (BitVec.allOnes 293, false) ∧
    acornStep false false false (BitVec.allOnes 293) = (BitVec.allOnes 293 ^^^ BitVec.twoPow 293 292, false) := by decide +kernel
/-- V11, rows 0, 61, 66 and 235 for `(ca, cb) = (1, 1)`. -/
theorem test_acornStep_taps :
    acornStep false true true (BitVec.twoPow 293 0) = (BitVec.twoPow 293 60, false) ∧
    acornStep false true true (BitVec.twoPow 293 61) = (BitVec.twoPow 293 60 ||| BitVec.twoPow 293 106, false) ∧
    acornStep false true true (BitVec.twoPow 293 66) =
      (BitVec.twoPow 293 65 ||| BitVec.twoPow 293 106 ||| BitVec.twoPow 293 292, true) ∧
    acornStep false true true (BitVec.twoPow 293 235) =
      (BitVec.twoPow 293 234 ||| BitVec.twoPow 293 288 ||| BitVec.twoPow 293 292, false) := by decide +kernel
/-- V11, rows 111, 196 and 244 for `(ca, cb) = (0, 0)`. -/
theorem test_acornStep_taps_off :
    acornStep false false false (BitVec.twoPow 293 111) =
      (BitVec.twoPow 293 110 ||| BitVec.twoPow 293 153 ||| BitVec.twoPow 293 292, true) ∧
    acornStep false false false (BitVec.twoPow 293 196) =
      (BitVec.twoPow 293 195 ||| BitVec.twoPow 293 229 ||| BitVec.twoPow 293 292, false) ∧
    acornStep false false false (BitVec.twoPow 293 244) = (BitVec.twoPow 293 243 ||| BitVec.twoPow 293 292, false) := by
  decide +kernel
/-- V14: the associated-data byte 01 on the register of V12. -/
theorem test_acornAad : acornAad 0x01 s12 = 0xA8776F2D0AA3AB35B62169EA3BA673A6BB804C4F682C78A74204A3AA2C4FE42539DEF4FC6 := by
  decide +kernel
/-- V13, row 3: the first byte of the keystream, and back. -/
theorem test_acornEnc : (acornEnc 0x00 s12c).2 = 0x2A ∧ (acornDec 0x2A s12c).2 = 0x00 := by decide +kernel
/-- V32 (a) and (b): one round. -/
theorem test_asconRound :
    asconRound 0xF0 ⟨0, 0, 0, 0, 0⟩ =
      ⟨0x001E0F00000000F0, 0x00000001E0000770, 0x3FFFFFFFFFFFFF74, 0x3C780000000000F0, 0x0000000000000000⟩ ∧
    asconRound 0x4B ⟨0x0123456789ABCDEF, 0x23456789ABCDEF01, 0x456789ABCDEF0123, 0x6789ABCDEF012345, 0x89ABCDEF01234567⟩ =
      ⟨0xAC2DFD80BD2CB16A, 0x40899D5456899D07, 0xC9470257AB670238, 0x68608DA71C49A702, 0x1B1B7CA11B1B7CA1⟩ := by decide +kernel
/-- V34: rotation. -/
theorem test_ror64 : ror64 0x0123456789ABCDEF 19 = 0x79BDE02468ACF135 ∧ ror64 1 1 = 0x8000000000000000 := by decide +kernel
/-- V35: the eighth associated-data byte runs `P(6)`; then the padding block. -/
theorem test_asconAad_block :
    asconAad 7 0x07 ⟨0xBC820DBDF7A4631B, 0x487A66865036B909, 0xA031B0C5810C1CD6, 0xDD7CE72083702217, 0x9B17156EDE557CE7⟩ =
      ⟨0xD015C632823325AF, 0x840B85E4356C5F73, 0xEDA0DE0887360C6F, 0x9397B9CDF9FC944D, 0xCB32D71AB8F0D738⟩ ∧
    asconCloseAad 8 ⟨0xD015C632823325AF, 0x840B85E4356C5F73, 0xEDA0DE0887360C6F, 0x9397B9CDF9FC944D, 0xCB32D71AB8F0D738⟩ =
      ⟨0x69FEEC6C5100A28E, 0xB017A3B8B98A59E7, 0x98B078831E0A40ED, 0xB8D01868D3F90A87, 0xEA992926328D99F1⟩ := by decide +kernel
/-- V35: the finalisation, padding at position 0. -/
theorem test_asconFinal :
    (asconFinal (blockOfList k16) 16
      ⟨0x556F503B8EEE5500, 0xA1AC3A7AF9C5DC36, 0x529180E4DF7FD99B, 0x3B27CE50FD0F4E92, 0x31979915E4FA80F3⟩).2.toList =
      [0x31, 0x61, 0x4D, 0xAC, 0x97, 0x64, 0x3C, 0x45, 0x94, 0x0A, 0x8F, 0x9E, 0x79, 0x64, 0x61, 0x3A] := by decide +kernel

/-! ## Witnesses: data that meet the hypotheses of each obligation that has any, clause by clause, at the ends of each range -/

/-- What one command does, as data: the state it leaves and the response it adds. -/
def ran (i : Instr) (s : State) : State × Response :=
  match exec i s with
  | .next t => (t, t.responses.getLastD ⟨.ok, []⟩)
  | _ => (s, ⟨.ok, []⟩)

/-- The premise `exec i s = next t` with `t.responses = s.responses ++ [r]`, met by `ran i s`. -/
def Runs (i : Instr) (s : State) : Prop :=
  exec i s = .next (ran i s).1 ∧ (ran i s).1.responses = s.responses ++ [(ran i s).2]

/-- Every command on every state gives such a pair (Laws/Loops.lean). -/
theorem runs (i : Instr) (s : State) : Runs i s := by
  obtain ⟨t, h⟩ := exec_next i s
  have e : ran i s = (t, t.responses.getLastD ⟨.ok, []⟩) := by simp [ran, h]
  refine ⟨by rw [e, h], ?_⟩
  rcases exec_cases i s t h with ⟨k, rfl⟩ | ⟨x, out, rfl⟩ <;> simp [e]

theorem wit_DecodeOfEncode : ∀ i ∈ [Instr.reset, .setkey k16, .setnonce [], .absorbAad [1], .encrypt [], .decrypt [2, 3], .computeTag,
    .verifyTag z16, .encrypt longest], i.WellFormed := by
  simp only [Instr.WellFormed, List.mem_cons, List.not_mem_nil, or_false, forall_eq_or_imp, forall_eq, Instr.operand,
    Config.operandLimit, length_longest]
  decide
theorem wit_EncodeOfDecode : decode ⟨0x01000000, []⟩ = .ok (.setkey []) ∧ decode ⟨0x07000001, [9]⟩ = .ok (.verifyTag [9]) := by decide
theorem wit_OpcodeRowsSelect : ([] : List Byte).length = (lenField 0x06000000).toNat ∧ k16.length = (lenField 0x07000010).toNat ∧
    ([] : List Byte).length = (lenField 0x08000000).toNat ∧
    longest.length = (lenField 0x07FFFFFF).toNat ∧ ∃ r ∈ opcodeRows, (0x07FFFFFF : Word32) &&& r.mask = r.pattern :=
  ⟨by decide, by decide, by decide, by rw [length_longest]; decide, ⟨0x07000000, 0xFF000000, .verifyTag⟩, by simp [opcodeRows], by decide⟩
/-- One queue for each clause; the opcodes at the ends of their ranges. -/
theorem wit_ReservedWordsRefused :
    (∀ c ∈ [(⟨0x08000000, []⟩ : Command), ⟨0xFF000010, k16⟩], 8 ≤ (opField c.cw).toNat) ∧
    (∀ c ∈ [(⟨0x00000001, [0]⟩ : Command), ⟨0x06FFFFFF, []⟩], (opField c.cw = 0 ∨ opField c.cw = 6) ∧ lenField c.cw ≠ 0) ∧
    (∀ c ∈ [(⟨0x00000000, []⟩ : Command), ⟨0x01000000, []⟩, ⟨0x07000001, [9]⟩, ⟨0x07000002, [9]⟩],
      (opField c.cw).toNat < 8 ∧ ((opField c.cw = 0 ∨ opField c.cw = 6) → lenField c.cw = 0)) := by decide
theorem wit_AssembledWordLayout : (Instr.absorbAad longest).WellFormed ∧ Instr.reset.WellFormed := by
  simp only [Instr.WellFormed, Instr.operand, Config.operandLimit, length_longest]; decide
theorem wit_ResponseWordLayout : longest.length < 16777216 ∧
    ∀ r ∈ [(⟨.ok, k16⟩ : Response), ⟨.invalidLength, []⟩, ⟨.invalidState, []⟩, ⟨.tagMismatch, []⟩], r.out.length < 16777216 := by
  rw [length_longest]; decide
theorem wit_StepRunsDecodedCommand : (State.reset.issue ⟨0x01000010, k16⟩).pending = ⟨0x01000010, k16⟩ :: [] ∧
    decode ⟨0x01000010, k16⟩ = .ok (.setkey k16) := by decide
theorem wit_IdleStepKeepsState : State.reset.pending = [] ∧ (at_ .ascon128 .finalized).pending = [] := by decide
theorem wit_CommandsRunInIssueOrder : (∀ i ∈ [Instr.setnonce k16, .setkey k16, .computeTag], i.WellFormed) ∧
    ({ State.reset with pending := [⟨0x02000010, k16⟩, ⟨0x01000010, k16⟩, ⟨0x06000000, []⟩, ⟨0x08000000, []⟩] }).pending =
      [Instr.setnonce k16, .setkey k16, .computeTag].map encode ++ [⟨0x08000000, []⟩] := by decide
theorem wit_SetkeyCompletes : k16.length = 16 ∧ (at_ .acorn128 .fresh).session.phase = .fresh ∧
    (at_ .ascon128 .keyAndNonceSet).session.phase = .keyAndNonceSet := by decide
theorem wit_SetnonceCompletes : z16.length = 16 ∧ (at_ .ascon128 .fresh).session.phase = .fresh ∧
    (at_ .acorn128 .keyAndNonceSet).session.phase = .keyAndNonceSet := by decide
theorem wit_AbsorbAadCompletes : (at_ .acorn128 .keyAndNonceSet).session.phase = .keyAndNonceSet ∧
    (at_ .ascon128 .absorbingAad).session.phase = .absorbingAad := by decide
/-- For `EncryptCompletes`, `DecryptCompletes` and `ComputeTagCompletes`: a state for each of the three phases. -/
theorem wit_EncryptCompletes : ∀ s ∈ [at_ .acorn128 .keyAndNonceSet, at_ .ascon128 .absorbingAad, at_ .acorn128 .processingPayload],
    s.session.phase = .keyAndNonceSet ∨ s.session.phase = .absorbingAad ∨ s.session.phase = .processingPayload := by decide +kernel
theorem wit_DecryptCompletes : ∀ s ∈ [at_ .ascon128 .keyAndNonceSet, at_ .acorn128 .absorbingAad, at_ .ascon128 .processingPayload],
    s.session.phase = .keyAndNonceSet ∨ s.session.phase = .absorbingAad ∨ s.session.phase = .processingPayload := by decide +kernel
theorem wit_ComputeTagCompletes : ∀ s ∈ [at_ .ascon128 .keyAndNonceSet, at_ .acorn128 .absorbingAad, at_ .ascon128 .processingPayload],
    s.session.phase = .keyAndNonceSet ∨ s.session.phase = .absorbingAad ∨ s.session.phase = .processingPayload := by decide +kernel
theorem wit_VerifyTagCompletes : z16.length = 16 ∧ (at_ .acorn128 .finalized).session.phase = .finalized := by decide
/-- An error of each kind. -/
theorem wit_ErrorsChangeNothing : Runs (.setkey []) (at_ .acorn128 .fresh) ∧ (ran (.setkey []) (at_ .acorn128 .fresh)).2.status ≠ .ok ∧
    Runs .computeTag (at_ .acorn128 .finalized) ∧ (ran .computeTag (at_ .acorn128 .finalized)).2.status ≠ .ok ∧
    Runs (.verifyTag k16) (at_ .ascon128 .finalized) ∧ (ran (.verifyTag k16) (at_ .ascon128 .finalized)).2.status ≠ .ok :=
  ⟨runs _ _, by decide +kernel, runs _ _, by decide +kernel, runs _ _, by decide +kernel⟩
/-- Lengths 15 and 17 raise the error, 16 does not. -/
theorem wit_InvalidLengthExactly : Runs (.setkey (0 :: z16)) (at_ .acorn128 .fresh) ∧
    (ran (.setkey (0 :: z16)) (at_ .acorn128 .fresh)).2.status = .invalidLength ∧
    Runs (.verifyTag z16.tail) (at_ .ascon128 .finalized) ∧
    (ran (.verifyTag z16.tail) (at_ .ascon128 .finalized)).2.status = .invalidLength ∧
    Runs (.setnonce z16) (at_ .acorn128 .fresh) ∧ (ran (.setnonce z16) (at_ .acorn128 .fresh)).2.status = .ok ∧
    opField 0x00000001 = Instr.reset.opcode ∧ opField 0x06FFFFFF = Instr.computeTag.opcode ∧
    lenField 0x00000001 ≠ 0 ∧ lenField 0x06FFFFFF ≠ 0 :=
  ⟨runs _ _, by decide +kernel, runs _ _, by decide +kernel, runs _ _, by decide +kernel, by decide⟩
/-- One cell for each of the five clauses. -/
theorem wit_InvalidStateExactly :
    (∀ i s, Runs i s) ∧ (ran (.setkey z16) (at_ .acorn128 .absorbingAad)).2.status = .invalidState ∧
    (ran (.absorbAad []) (at_ .acorn128 .fresh)).2.status = .invalidState ∧
    (ran (.encrypt []) (at_ .acorn128 .fresh)).2.status = .invalidState ∧
    (ran (.decrypt [0]) (at_ .ascon128 .finalized)).2.status = .invalidState ∧
    (ran .computeTag (at_ .acorn128 .fresh)).2.status = .invalidState ∧
    (ran (.verifyTag z16) (at_ .ascon128 .processingPayload)).2.status = .invalidState :=
  ⟨runs, by decide +kernel, by decide +kernel, by decide +kernel, by decide +kernel, by decide +kernel, by decide +kernel⟩
theorem wit_TagMismatchExactly : Runs (.verifyTag k16) (at_ .acorn128 .finalized) ∧
    (ran (.verifyTag k16) (at_ .acorn128 .finalized)).2.status = .tagMismatch ∧
    (ran (.verifyTag z16) (at_ .acorn128 .finalized)).2.status = .ok := ⟨runs _ _, by decide +kernel, by decide +kernel⟩
theorem wit_FixedOperandsReadWhole : (z16.tail).length ≠ 16 ∧ z16.length = 16 ∧
    (at_ .acorn128 .fresh).session.phase.acceptsKeyNonce = true ∧ (at_ .ascon128 .keyAndNonceSet).session.phase.acceptsKeyNonce = true ∧
    (at_ .acorn128 .finalized).session.phase = .finalized := by decide
/-- A success of each of the three commands that answer with bytes, an empty one, and an error. -/
theorem wit_OutputLengths : (∀ i s, Runs i s) ∧
    (ran (.encrypt [7, 8]) (at_ .ascon128 .processingPayload)).2.out.length = 2 ∧
    (ran (.decrypt []) (at_ .acorn128 .processingPayload)).2.out.length = 0 ∧
    (ran .computeTag (at_ .ascon128 .processingPayload)).2.out.length = 16 ∧
    (ran (.encrypt [7, 8]) (at_ .ascon128 .finalized)).2 = ⟨.invalidState, []⟩ :=
  ⟨runs, by decide +kernel, by decide +kernel, by decide +kernel, by decide +kernel⟩
/-- A command that completes for each clause. -/
theorem wit_WritersOfState : ∀ i ∈ [Instr.reset, .setkey z16, .setnonce z16, .absorbAad [], .encrypt [1], .decrypt [1], .computeTag,
    .verifyTag z16], exec i (at_ .ascon128 .keyAndNonceSet) = .next (ran i (at_ .ascon128 .keyAndNonceSet)).1 := fun i _ => (runs i _).1
theorem wit_PhaseMovesForward : Runs .reset (at_ .acorn128 .finalized) ∧
    (ran .reset (at_ .acorn128 .finalized)).1.session.phase = .fresh ∧ Runs (.absorbAad [1]) (at_ .ascon128 .keyAndNonceSet) ∧
    (ran (.absorbAad [1]) (at_ .ascon128 .keyAndNonceSet)).1.session.phase = .absorbingAad :=
  ⟨runs _ _, by decide +kernel, runs _ _, by decide +kernel⟩
/-- In each phase a session meets the invariant. -/
theorem wit_StepKeepsSessionInvariant : ∀ p : Phase, (at_ .ascon128 p).session.Inv ∧
    step ((at_ .ascon128 p).issue ⟨0x00000000, []⟩) = .next (ran .reset (at_ .ascon128 p)).1 := by
  intro p
  cases p <;> exact ⟨by constructor <;> decide +kernel, rfl⟩
/-- Commands of one kind and length with different bytes, in sessions that share the phase alone; in `Finalized`, candidates neither
of which is its session's tag, and candidates both of which are. -/
theorem wit_ResponseShapeFollowsPhaseAndLength :
    (Instr.encrypt [1, 2]).opcode = (Instr.encrypt [3, 4]).opcode ∧
    (Instr.encrypt [1, 2]).operand.length = (Instr.encrypt [3, 4]).operand.length ∧
    (at_ .acorn128 .absorbingAad).session.phase = (at_ .ascon128 .absorbingAad).session.phase ∧
    (k16 = (at_ .acorn128 .finalized).session.tag.toList ↔ k16.reverse = (at_ .ascon128 .finalized).session.tag.toList) ∧
    (z16 = (at_ .acorn128 .finalized).session.tag.toList ↔
      k16 = ({ (at_ .ascon128 .finalized).session with tag := blockOfList k16 }).tag.toList) := by decide +kernel
/-- Residues that agree across the wrap, and two counters that are both non-zero. -/
theorem wit_CountersReadModuloEight : (0xFFFFFFFFFFFFFFFF : Word64).toNat % 8 = (7 : Word64).toNat % 8 ∧
    (0 : Word64).toNat % 8 = (8 : Word64).toNat % 8 ∧ ((8 : Word64) = 0 ↔ (16 : Word64) = 0) := by decide
theorem wit_AeadRoundTrip : (at_ .acorn128 .finalized).session.alg = (State.create .acorn128).session.alg ∧
    (at_ .ascon128 .absorbingAad).session.alg = (State.create .ascon128).session.alg ∧ k16.length = 16 ∧ z16.length = 16 := by decide +kernel
theorem wit_AeadForgetsThePast : (at_ .acorn128 .finalized).session.alg = (at_ .acorn128 .fresh).session.alg := by decide
theorem wit_ChunkingIndependence : Instr.absorbAad ∈ [Instr.absorbAad, Instr.encrypt, Instr.decrypt] ∧
    Instr.decrypt ∈ [Instr.absorbAad, Instr.encrypt, Instr.decrypt] := by simp
theorem wit_StreamingByteByByte : [0x2A] ≠ ([] : List Byte) ∧ Instr.encrypt ∈ [Instr.absorbAad, Instr.encrypt, Instr.decrypt] := by simp
/-- Every accepted phase of every data command; a cut with an empty part, and one into single bytes. -/
theorem wit_ResultIndependentOfCut :
    (∀ p ∈ [Phase.keyAndNonceSet, .absorbingAad], acceptsData .absorbAad (at_ .ascon128 p).session.phase) ∧
    (∀ p ∈ [Phase.keyAndNonceSet, .absorbingAad, .processingPayload],
      acceptsData .encrypt (at_ .acorn128 p).session.phase ∧ acceptsData .decrypt (at_ .ascon128 p).session.phase) ∧
    ([[], [1, 2]] : List (List Byte)) ≠ [] ∧ ([[1], [2]] : List (List Byte)) ≠ [] := by
  simp [acceptsData, at_]
theorem wit_DataCommandsStream : acceptsData .absorbAad (at_ .acorn128 .absorbingAad).session.phase ∧
    acceptsData .decrypt (at_ .ascon128 .processingPayload).session.phase ∧ Instr.decrypt ≠ Instr.absorbAad ∧
    Instr.encrypt ≠ Instr.absorbAad := by
  refine ⟨by simp [acceptsData, at_], by simp [acceptsData, at_], fun h => ?_, fun h => ?_⟩
  · exact absurd (congrFun h []) (by decide)
  · exact absurd (congrFun h []) (by decide)
theorem wit_BothDirectionsInOneEngine : ∀ p ∈ [Phase.keyAndNonceSet, .absorbingAad, .processingPayload],
    acceptsData .encrypt (at_ .ascon128 p).session.phase := by simp [acceptsData, at_]
theorem wit_EmptyDataKeepsTag : ∀ i ∈ [Instr.absorbAad [], Instr.encrypt [], Instr.decrypt []],
    Runs i (at_ .ascon128 .keyAndNonceSet) := fun i _ => runs i _
theorem wit_RepeatableCommandsIdempotent : Instr.reset ∈ [Instr.reset, Instr.setkey k16, Instr.setnonce k16, Instr.verifyTag k16] ∧
    Instr.verifyTag k16 ∈ [Instr.reset, Instr.setkey k16, Instr.setnonce k16, Instr.verifyTag k16] := by decide
theorem wit_LastWriteWinsInEitherOrder : k16.length = 16 ∧ (ran (.setkey k16) (at_ .acorn128 .fresh)).2.status = .ok ∧
    (ran (.setkey k16) (at_ .acorn128 .finalized)).2.status = .invalidState := by decide +kernel
theorem wit_AcornStepBitByBit : ∀ j ∈ [0, 59, 60, 61, 106, 153, 192, 229, 288, 291, 292], j < 293 := by decide
/-- Two different registers that agree on the taps; positions that only shift, at the ends of their ranges. -/
theorem wit_AcornTapPositions : (∀ j ∈ acornTaps, (0 : AcornReg).getLsbD j = (BitVec.twoPow 293 292).getLsbD j) ∧
    (0 : AcornReg) ≠ BitVec.twoPow 293 292 ∧ ∀ j ∈ [0, 59, 61, 287, 289, 291], j < 293 ∧ j ∉ acornWrites := by decide +kernel
theorem wit_AcornOperationIsSchedule : (at_ .acorn128 .processingPayload).session.alg = .acorn128 ∧ k16.length = 16 ∧ z16.length = 16 := by
  decide
theorem wit_AsconRoundConstantTable : 0 < 12 ∧ 11 < 12 := by decide
theorem wit_AsconSubstitutionIsTable : 0 < 64 ∧ 63 < 64 := by decide
/-- The counters at a block boundary, the wrap included; the strings of one byte, a whole block, and one byte more. -/
theorem wit_AsconBytesEqualBlocks : (0 : Word64).toNat % 8 = 0 ∧ (0xFFFFFFFFFFFFFFF8 : Word64).toNat % 8 = 0 ∧
    ∀ l ∈ [[0x2A], List.replicate 8 (0 : Byte), List.replicate 9 0], l ≠ [] ∧ (0 : Word64) + BitVec.ofNat 64 l.length ≠ 0 := by decide
theorem wit_AsconOperationIsBlocks : (at_ .ascon128 .finalized).session.alg = .ascon128 ∧ k16.length = 16 ∧ z16.length = 16 ∧
    ([] : List Byte).length < 2 ^ 64 ∧ longest.length < 2 ^ 64 := by
  rw [length_longest]; decide
theorem wit_AsconByteOrderBigEndian : 0 < 8 ∧ 7 < 8 := by decide
theorem wit_AcornBitOrderLsbFirst : 0 < 16 ∧ 15 < 16 ∧ 7 < 8 ∧ 127 < 128 := by decide
/-- Two sessions, one command each: one session's step, an interleaving, and each session's own run. -/
theorem wit_SessionsIndependent :
    let sys : Sessions 2 := #v[(State.create .acorn128).issue ⟨0x00000000, []⟩, (State.create .ascon128).issue ⟨0x01000001, [0]⟩]
    (∃ t, stepSession sys 0 = .next t) ∧ (1 : Fin 2) ≠ 0 ∧ (∃ t, runSessions [1, 0] sys = .next t) ∧
    ∀ k : Fin 2, ∃ t, runSteps (List.count k [1, 0]) (sys.get k) = .next t := by
  refine ⟨⟨_, rfl⟩, by decide, ⟨_, rfl⟩, fun k => ?_⟩
  match k with
  | 0 => exact ⟨_, rfl⟩
  | 1 => exact ⟨_, rfl⟩

end Sys2Proof.Tests
end

section
/-! Proofs for 20_memory.md section 3 (R55, R56). ABSORB_AAD, ENCRYPT and DECRYPT obey one law: a command over `l ++ m` does what
the command over `l` and then the command over `m` do. Both obligations follow from that law alone. -/

namespace Sys2Proof.Machine

/-! ## The phase an accepted data command opens (40_controller.md rule R92) -/

/-- An accepted ABSORB_AAD runs in `AbsorbingAAD`, whether it had to start the operation or not. -/
theorem Session.start_phase_of_acceptsAad {x : Session} (h : x.phase.acceptsAad = true) :
    x.start.phase = .absorbingAad := by
  rw [Session.start_phase]
  cases hp : x.phase <;> simp_all [Phase.acceptsAad]

/-- An accepted payload command runs in `ProcessingPayload`, whatever it had to start or close. -/
theorem Session.start_closeAad_phase_of_acceptsPayload {x : Session} (h : x.phase.acceptsPayload = true) :
    x.start.closeAad.phase = .processingPayload := by
  rw [Session.closeAad_phase, Session.start_phase]
  cases hp : x.phase <;> simp_all [Phase.acceptsPayload]

/-! ## The law of the data commands -/

/-- In the phases of `accepts`, the command `C` over `inp` answers `OK` with the session and the output of `effect`, in a phase
that accepts `C` again, and the effect over `l ++ m` is the effect over `l` followed by that over `m`. -/
structure DataLaw (C : List Byte → Instr) (accepts : Phase → Bool)
    (effect : Session → List Byte → Session × List Byte) : Prop where
  exec_eq : ∀ (s : State) (inp : List Byte), accepts s.session.phase = true →
    exec (C inp) s = finish (effect s.session inp).1 (effect s.session inp).2 s
  accepts_effect : ∀ (x : Session) (l : List Byte), accepts x.phase = true → accepts (effect x l).1.phase = true
  effect_append : ∀ (x : Session) (l m : List Byte), accepts x.phase = true →
    effect x (l ++ m) = ((effect (effect x l).1 m).1, (effect x l).2 ++ (effect (effect x l).1 m).2)
  length_out : C ≠ .absorbAad → ∀ (x : Session) (l : List Byte), (effect x l).2.length = l.length

/-- What an accepted ABSORB_AAD does to the session; it outputs nothing (40_controller.md rule R96). -/
def aadEffect (x : Session) (inp : List Byte) : Session × List Byte := (x.start.absorbBytes inp, [])

/-- What an accepted payload command does, `f` being its operation on one byte (40_controller.md rules R97, R98). -/
def payloadEffect (f : Session → Byte → Session × Byte) (x : Session) (inp : List Byte) : Session × List Byte :=
  payloadBytes f x.start.closeAad inp

theorem aadEffect_phase {x : Session} (l : List Byte) (h : x.phase.acceptsAad = true) :
    (aadEffect x l).1.phase = .absorbingAad := by
  simp [aadEffect, Session.start_phase_of_acceptsAad h]

theorem dataLaw_absorbAad : DataLaw .absorbAad Phase.acceptsAad aadEffect where
  exec_eq s inp h := by simp [exec_absorbAad, h, aadEffect]
  accepts_effect x l h := by rw [aadEffect_phase l h]; rfl
  effect_append x l m h := by
    have opened : (aadEffect x l).1.start = (aadEffect x l).1 :=
      Session.start_of_ne _ (by simp [aadEffect_phase l h])
    change _ = ((aadEffect x l).1.start.absorbBytes m, [])
    rw [opened, aadEffect, Session.absorbBytes_append]
    rfl
  length_out h := absurd rfl h

section Payload
variable {f : Session → Byte → Session × Byte} (hf : ∀ x b, (f x b).1.phase = x.phase)
include hf

theorem payloadEffect_phase {x : Session} (l : List Byte) (h : x.phase.acceptsPayload = true) :
    (payloadEffect f x l).1.phase = .processingPayload :=
  (payloadBytes_keeps f Session.phase hf _ l).trans (Session.start_closeAad_phase_of_acceptsPayload h)

/-- A payload command whose byte operation keeps the phase obeys the law: once opened, the session is not opened again. -/
theorem dataLaw_payload {C : List Byte → Instr}
    (hC : ∀ (s : State) (inp : List Byte), s.session.phase.acceptsPayload = true →
      exec (C inp) s = finish (payloadEffect f s.session inp).1 (payloadEffect f s.session inp).2 s) :
    DataLaw C Phase.acceptsPayload (payloadEffect f) where
  exec_eq := hC
  accepts_effect x l h := by rw [payloadEffect_phase hf l h]; rfl
  effect_append x l m h := by
    have phase := payloadEffect_phase hf l h
    have opened : (payloadEffect f x l).1.start.closeAad = (payloadEffect f x l).1 := by
      rw [Session.start_of_ne _ (by simp [phase]), Session.closeAad_of_ne _ (by simp [phase])]
    rw [payloadEffect, payloadBytes_append, payloadEffect, opened]
    rfl
  length_out _ x l := length_payloadBytes f _ l

end Payload

theorem dataLaw_encrypt : DataLaw .encrypt Phase.acceptsPayload (payloadEffect Session.encryptByte) :=
  dataLaw_payload Session.encryptByte_phase fun s inp h => by simp [exec_encrypt, h, payloadEffect]

theorem dataLaw_decrypt : DataLaw .decrypt Phase.acceptsPayload (payloadEffect Session.decryptByte) :=
  dataLaw_payload Session.decryptByte_phase fun s inp h => by simp [exec_decrypt, h, payloadEffect]

/-- Every data command obeys the law, and `acceptsData` names the phases that accept it. -/
theorem exists_dataLaw {C : List Byte → Instr} {p : Phase} (h : acceptsData C p) :
    ∃ accepts effect, DataLaw C accepts effect ∧ accepts p = true := by
  obtain ⟨rfl, hp⟩ | ⟨rfl | rfl, hp⟩ := h
  · exact ⟨_, _, dataLaw_absorbAad, by rcases hp with rfl | rfl <;> rfl⟩
  · exact ⟨_, _, dataLaw_encrypt, by rcases hp with rfl | rfl | rfl <;> rfl⟩
  · exact ⟨_, _, dataLaw_decrypt, by rcases hp with rfl | rfl | rfl <;> rfl⟩

/-! ## What the law gives -/

section Law
variable {C : List Byte → Instr} {accepts : Phase → Bool} {effect : Session → List Byte → Session × List Byte}

/-- The state after an accepted data command, written out. -/
theorem DataLaw.exec_next (law : DataLaw C accepts effect) (s : State) (inp : List Byte)
    (h : accepts s.session.phase = true) :
    exec (C inp) s = .next ((s.withSession (effect s.session inp).1).respond ⟨.ok, (effect s.session inp).2⟩) :=
  (law.exec_eq s inp h).trans (finish_eq _ _ s)

/-- The commands over the parts of a string have together the effect of the whole string (20_memory.md R55). -/
theorem DataLaw.execAll_parts (law : DataLaw C accepts effect) {bs : List (List Byte)} (hbs : bs ≠ []) (s : State)
    (h : accepts s.session.phase = true) :
    ∃ (v : State) (rs : List Response), execAll (bs.map C) s = .next v ∧ v.responses = s.responses ++ rs ∧
      v.session = (effect s.session bs.flatten).1 ∧ rs.flatMap Response.out = (effect s.session bs.flatten).2 ∧
      ∀ q ∈ rs, q.status = .ok := by
  induction bs, hbs using List.recNeNil generalizing s with
  | singleton l =>
    exact ⟨_, [⟨.ok, (effect s.session l).2⟩], execAll_cons _ _ s _ (law.exec_next s l h), rfl, by simp, by simp, by simp⟩
  | cons l bs _ ih =>
    have first := law.exec_next s l h
    obtain ⟨v, rs, hv, hrs, hx, hout, hok⟩ :=
      ih ((s.withSession (effect s.session l).1).respond ⟨.ok, (effect s.session l).2⟩) (law.accepts_effect s.session l h)
    refine ⟨v, ⟨.ok, (effect s.session l).2⟩ :: rs, (execAll_cons _ _ s _ first).trans hv, by simp [hrs], ?_, ?_, ?_⟩
    · simp [hx, law.effect_append _ _ _ h]
    · simp [hout, law.effect_append _ _ _ h]
    · simpa using hok

/-- The effect of a string up to one of its bytes, of that byte alone, and of the rest (20_memory.md R56). -/
theorem DataLaw.out_append_cons (law : DataLaw C accepts effect) (x : Session) (l m : List Byte) (b : Byte)
    (h : accepts x.phase = true) :
    (effect x (l ++ b :: m)).2 = (effect x l).2 ++ ((effect (effect x l).1 [b]).2 ++
      (effect (effect (effect x l).1 [b]).1 m).2) := by
  rw [law.effect_append x l (b :: m) h, ← List.singleton_append,
    law.effect_append _ [b] m (law.accepts_effect x l h)]

/-- Output byte `i` is the one the command over `IN[i]` alone outputs after bytes `0 .. i-1` (20_memory.md R56). -/
theorem DataLaw.getElem?_out (law : DataLaw C accepts effect) (hC : C ≠ .absorbAad) (x : Session) (l m : List Byte) (b : Byte)
    (h : accepts x.phase = true) :
    (effect x (l ++ b :: m)).2[l.length]? = (effect (effect x l).1 [b]).2[0]? := by
  have one : 0 < (effect (effect x l).1 [b]).2.length := by simp [law.length_out hC]
  have before : (effect x l).2.length = l.length := law.length_out hC x l
  rw [law.out_append_cons x l m b h, List.getElem?_append_right before.le, before, Nat.sub_self,
    List.getElem?_append_left one]

end Law

/-! ## The obligations -/

/-- Settles O53: by the law of the data commands, along the parts of the cut. -/
theorem resultIndependentOfCut : Obligations.ResultIndependentOfCut := by
  intro C s hs bs hbs
  obtain ⟨accepts, effect, law, h⟩ := exists_dataLaw hs
  obtain ⟨v, rs, hv, hrs, hx, hout, hok⟩ := law.execAll_parts hbs s h
  exact ⟨_, v, _, rs, law.exec_next s bs.flatten h, rfl, hv, hrs, hx, hout, rfl, hok⟩

/-- Settles O54: by the law of the data commands, cutting the string before and after one byte. -/
theorem dataCommandsStream : Obligations.DataCommandsStream := by
  intro C s hs l m b
  obtain ⟨accepts, effect, law, h⟩ := exists_dataLaw hs
  have h' := law.accepts_effect s.session l h
  refine ⟨_, _, _, _, _, _, _, _, law.exec_next s l h, rfl, rfl, law.exec_next _ [b] h', rfl, rfl,
    law.exec_next s (l ++ [b]) h, rfl, rfl, law.exec_next s (l ++ b :: m) h, rfl, rfl, ?_, fun hC => ⟨?_, ?_, ?_⟩⟩
  · simp [law.effect_append _ _ _ h]
  · simp [law.length_out hC]; omega
  · simp [law.length_out hC]
  · exact law.getElem?_out hC s.session l m b h

end Sys2Proof.Machine
end

section
/-! Proofs for 30_encoding.md: the decoder and the encoder are inverse on well-formed commands, the opcode map's rows select what
the decoder answers, and the words the machine refuses. All of it rests on one equivalence, `decode_eq_ok_iff`. -/

namespace Sys2Proof.Machine

/-! ## What the decoder answers -/

/-- The opcode map inverts the `OP` column; a format N command needs `LEN = 0`. -/
theorem decodeFields_opcode (i : Instr) (len : BitVec 24) (hn : i.format = .n → len = 0) :
    decodeFields i.opcode len i.operand = .ok i := by
  cases i with
  | reset => rw [hn rfl]; rfl
  | computeTag => rw [hn rfl]; rfl
  | setkey | setnonce | absorbAad | encrypt | decrypt | verifyTag => rfl

theorem decodeN_eq_ok {len : BitVec 24} {i j : Instr} (h : decodeN len i = .ok j) : len = 0 ∧ i = j := by
  unfold decodeN at h
  split at h
  · exact ⟨‹_›, Except.ok.inj h⟩
  · cases h

theorem eq_ofNat_of_toNat_eq {op : Byte} {n : Nat} (h : op.toNat = n) : op = BitVec.ofNat 8 n := by
  rw [← h, BitVec.ofNat_toNat, BitVec.setWidth_eq]

/-- What the opcode map answers has the opcode it was given, and the buffer as its operand (none for format N). -/
theorem decodeFields_eq_ok {op : Byte} {len : BitVec 24} {inp : List Byte} {i : Instr}
    (h : decodeFields op len inp = .ok i) :
    i.opcode = op ∧ (i.operand = inp ∨ (len = 0 ∧ i.operand = [])) := by
  unfold decodeFields at h
  split at h <;> rename_i hop <;> try rw [eq_ofNat_of_toNat_eq hop]
  case h_1 | h_7 => obtain ⟨hlen, rfl⟩ := decodeN_eq_ok h; exact ⟨rfl, .inr ⟨hlen, rfl⟩⟩
  case h_9 => cases h
  all_goals cases h; exact ⟨rfl, .inl rfl⟩

/-- A format N command has no operand byte. -/
theorem operand_of_format_n {i : Instr} (h : i.format = .n) : i.operand = [] := by
  cases i <;> first | rfl | cases h

/-- The decoder, said once: `i` is what `c` decodes to exactly when `c` has `i`'s opcode, its operand, and as many bytes as `LEN`
says (30_encoding.md rules R71, R73, R77). -/
theorem decode_eq_ok_iff (c : Command) (i : Instr) :
    decode c = .ok i ↔ i.opcode = opField c.cw ∧ i.operand = c.inp ∧ c.inp.length = (lenField c.cw).toNat := by
  constructor
  · intro h
    unfold decode at h
    split at h
    · cases h
    next j hj =>
      split at h
      next hlen =>
        cases h
        obtain ⟨hop, hinp | ⟨hzero, hinp⟩⟩ := decodeFields_eq_ok hj
        · exact ⟨hop, hinp, hlen⟩
        · rw [hzero] at hlen
          exact ⟨hop, by rw [hinp, List.eq_nil_of_length_eq_zero hlen], by rw [hzero]; exact hlen⟩
      · cases h
  · rintro ⟨hop, hinp, hlen⟩
    have fields : decodeFields (opField c.cw) (lenField c.cw) c.inp = .ok i := by
      rw [← hop, ← hinp]
      refine decodeFields_opcode i _ fun hn => BitVec.eq_of_toNat_eq ?_
      rw [← hlen, ← hinp, operand_of_format_n hn]; rfl
    simp [decode, fields, hlen]

theorem toNat_length_of_wellFormed {i : Instr} (h : i.WellFormed) :
    (BitVec.ofNat 24 i.operand.length).toNat = i.operand.length := by
  rw [BitVec.toNat_ofNat, Nat.mod_eq_of_lt (show i.operand.length < 2 ^ 24 from h)]

/-- Settles O1: by the equivalence that describes the decoder. -/
theorem decodeOfEncode : Obligations.DecodeOfEncode := by
  intro i hi
  rw [decode_eq_ok_iff]
  exact ⟨(opField_word i).symm, rfl, by simp [encode, toNat_length_of_wellFormed hi]⟩

/-- Settles O2: the fields the decoder read determine the word. -/
theorem encodeOfDecode : Obligations.EncodeOfDecode := by
  intro c i h
  obtain ⟨hop, hinp, hlen⟩ := (decode_eq_ok_iff c i).mp h
  have hword : i.word = c.cw := by
    rw [Instr.word, hop, hinp, hlen, BitVec.ofNat_toNat, BitVec.setWidth_eq, word_eq_fields]
  exact ⟨by rw [encode, hword, hinp], by
    rw [Instr.WellFormed, hinp, hlen]; exact (lenField c.cw).isLt⟩

/-! ## The opcode map's rows (30_encoding.md rule R73) -/

/-- Two command words are equal exactly when their fields are. -/
theorem append_eq_append_iff (op op' : Byte) (len len' : BitVec 24) :
    op ++ len = op' ++ len' ↔ op = op' ∧ len = len' := by
  constructor
  · intro h
    exact ⟨by simpa using congrArg opField h, by simpa using congrArg lenField h⟩
  · rintro ⟨rfl, rfl⟩; rfl

/-- The mask `FF000000` leaves `OP`. -/
theorem and_opMask_eq_iff (w : Word32) (op : Byte) : w &&& 0xFF000000 = op ++ (0 : BitVec 24) ↔ opField w = op := by
  have mask : (0xFF000000 : Word32) = BitVec.allOnes 8 ++ (0 : BitVec 24) := by decide
  have high : opField w &&& BitVec.allOnes 8 = opField w := BitVec.and_allOnes
  conv_lhs => rw [← word_eq_fields w, mask, BitVec.and_append, append_eq_append_iff, high]
  simp

/-- The mask `FFFFFFFF` leaves both fields. -/
theorem and_fullMask_eq_iff (w : Word32) (op : Byte) :
    w &&& 0xFFFFFFFF = op ++ (0 : BitVec 24) ↔ opField w = op ∧ lenField w = 0 := by
  have mask : (0xFFFFFFFF : Word32) = BitVec.allOnes 32 := by decide
  conv_lhs => rw [mask, BitVec.and_allOnes, ← word_eq_fields w, append_eq_append_iff]

/-- How the rows are made: the pattern is the opcode with `LEN = 0`, the mask covers `LEN` for format N only. -/
theorem opcodeRow_eq : ∀ r ∈ opcodeRows, r.pattern = (r.build []).opcode ++ (0 : BitVec 24) ∧
    r.mask = if (r.build []).format = .n then 0xFFFFFFFF else 0xFF000000 := by decide

/-- The buffer of a row's command decides neither its opcode nor its format, and is its operand unless the format has none. -/
theorem opcodeRow_build {r : OpcodeRow} (hr : r ∈ opcodeRows) (inp : List Byte) :
    (r.build inp).opcode = (r.build []).opcode ∧
      (r.build inp).operand = if (r.build []).format = .n then [] else inp := by
  simp only [opcodeRows, List.mem_cons, List.not_mem_nil, or_false] at hr
  rcases hr with rfl | rfl | rfl | rfl | rfl | rfl | rfl | rfl <;> exact ⟨rfl, rfl⟩

/-- A row selects the words with its opcode, and of a format N row those with `LEN = 0`. -/
theorem opcodeRow_selects_iff {r : OpcodeRow} (hr : r ∈ opcodeRows) (w : Word32) :
    w &&& r.mask = r.pattern ↔ opField w = (r.build []).opcode ∧ ((r.build []).format = .n → lenField w = 0) := by
  obtain ⟨pattern, mask⟩ := opcodeRow_eq r hr
  rw [pattern, mask]
  split
  next hn => rw [and_fullMask_eq_iff, forall_prop_of_true hn]
  next hn => rw [and_opMask_eq_iff, forall_prop_of_false hn, and_true]

/-- No word has the opcodes of two rows. -/
theorem opcodeRows_pairwise_opcode :
    opcodeRows.Pairwise fun r q => (r.build []).opcode ≠ (q.build []).opcode := by decide

/-- Settles O3: a row's condition and the decoder's are the same condition on the two fields. -/
theorem opcodeRowsSelect : Obligations.OpcodeRowsSelect := by
  refine ⟨fun c hlen r hr => ?_, fun w => ?_⟩
  · have nil : lenField c.cw = 0 ↔ [] = c.inp := by
      rw [← BitVec.toNat_inj, ← hlen, eq_comm (a := [])]
      exact List.length_eq_zero_iff
    obtain ⟨opcode, operand⟩ := opcodeRow_build hr c.inp
    rw [opcodeRow_selects_iff hr, decode_eq_ok_iff, opcode, operand, eq_comm (a := opField c.cw), and_iff_left hlen]
    split
    next hn => rw [forall_prop_of_true hn, nil]
    next hn => rw [forall_prop_of_false hn, eq_self]
  · refine opcodeRows_pairwise_opcode.imp_of_mem fun {r q} hr hq hne => ?_
    rintro ⟨hwr, hwq⟩
    have hr' := ((opcodeRow_selects_iff hr w).mp hwr).1
    have hq' := ((opcodeRow_selects_iff hq w).mp hwq).1
    exact hne (hr'.symm.trans hq')

/-! ## What is refused (30_encoding.md rules R76, R77) -/

theorem decodeFields_reservedOpcode {op : Byte} (h : 8 ≤ op.toNat) (len : BitVec 24) (inp : List Byte) :
    decodeFields op len inp = .error .reservedOpcode := by
  unfold decodeFields
  split <;> first | omega | rfl

theorem decodeFields_reservedLength {op : Byte} (h : op = 0 ∨ op = 6) {len : BitVec 24} (hlen : len ≠ 0) (inp : List Byte) :
    decodeFields op len inp = .error .reservedLength := by
  rcases h with rfl | rfl <;> exact if_neg hlen

/-- Every other pair of fields has a meaning. -/
theorem decodeFields_ok {op : Byte} (h : op.toNat < 8) {len : BitVec 24} (hlen : op = 0 ∨ op = 6 → len = 0)
    (inp : List Byte) : ∃ i, decodeFields op len inp = .ok i := by
  unfold decodeFields
  split <;> rename_i hop
  case h_1 => exact ⟨.reset, if_pos (hlen (.inl (eq_ofNat_of_toNat_eq hop)))⟩
  case h_7 => exact ⟨.computeTag, if_pos (hlen (.inr (eq_ofNat_of_toNat_eq hop)))⟩
  case h_9 => simp only [imp_false] at *; omega
  all_goals exact ⟨_, rfl⟩

theorem decode_error {c : Command} {e : DecodeError} (h : decodeFields (opField c.cw) (lenField c.cw) c.inp = .error e) :
    decode c = .error e := by
  simp [decode, h]

theorem step_of_decode_error {c : Command} {s : State} {rest : List Command} (hs : s.pending = c :: rest) {e : DecodeError}
    (h : decode c = .error e) : step s = .refused (refusalOf e) := by
  rw [step_cons s c rest hs, h]

theorem step_of_decode_ok {c : Command} {s : State} {rest : List Command} (hs : s.pending = c :: rest) {i : Instr}
    (h : decode c = .ok i) : step s = exec i { s with pending := rest } := by
  rw [step_cons s c rest hs, h]

/-- Settles O4: the opcode map errs on the reserved words alone, and the rest is a matter of the buffer's length. -/
theorem reservedWordsRefused : Obligations.ReservedWordsRefused := by
  intro c s rest hs
  refine ⟨fun hop => ?_, fun hop hlen => ?_, fun hop hlen => ?_⟩
  · exact step_of_decode_error hs (decode_error (decodeFields_reservedOpcode hop _ _))
  · exact step_of_decode_error hs (decode_error (decodeFields_reservedLength hop hlen _))
  · obtain ⟨i, hi⟩ := decodeFields_ok hop hlen c.inp
    by_cases framed : c.inp.length = (lenField c.cw).toNat
    · have hd : decode c = .ok i := by simp [decode, hi, framed]
      exact .inl ⟨framed, i, hd, step_of_decode_ok hs hd⟩
    · have hd : decode c = .error .framing := by simp [decode, hi, framed]
      exact .inr ⟨framed, step_of_decode_error hs hd⟩

/-! ## The words -/

/-- Two fields side by side are the high one shifted, OR the low one (30_encoding.md rule R78). -/
theorem append_ofNat_eq_shiftLeft_or (op : Byte) {n : Nat} (hn : n < 2 ^ 24) :
    op ++ BitVec.ofNat 24 n = (op.setWidth 32 <<< 24) ||| BitVec.ofNat 32 n := by
  have low : BitVec.ofNat 32 n = (BitVec.ofNat 24 n).setWidth 32 := by
    apply BitVec.eq_of_toNat_eq
    simp only [BitVec.toNat_ofNat, BitVec.toNat_setWidth]
    omega
  rw [low, BitVec.append_def]
  simp [BitVec.shiftLeftZeroExtend_eq, BitVec.setWidth'_eq]

/-- Settles O6: by the layout of two fields side by side. -/
theorem assembledWordLayout : Obligations.AssembledWordLayout :=
  fun i hi => ⟨append_ofNat_eq_shiftLeft_or i.opcode hi, rfl⟩

theorem Status.code_injective (a b : Status) (h : a.code = b.code) : a = b := by
  cases a <;> cases b <;> first | rfl | simp [Status.code] at h

/-- Settles O7: by the word's two fields and the four codes being different. -/
theorem responseWordLayout : Obligations.ResponseWordLayout := by
  intro r hr
  have op : opField r.rw = r.status.code := opField_append _ _
  have len : lenField r.rw = BitVec.ofNat 24 r.out.length := lenField_append _ _
  have code (a : Status) : r.status = a ↔ opField r.rw = a.code := by
    rw [op]; exact ⟨congrArg _, Status.code_injective _ _⟩
  refine ⟨op, ?_, code .ok, code .invalidLength, code .invalidState, code .tagMismatch⟩
  rw [len, BitVec.toNat_ofNat, Nat.mod_eq_of_lt hr]

/-- Settles O5: the ten words are evaluated. -/
theorem listedWordsDecode : Obligations.ListedWordsDecode := by
  unfold Obligations.ListedWordsDecode
  decide

/-! ## The machine's step (30_encoding.md rule R70) -/

/-- Settles O8: a step is what `step` does with a decoded command. -/
theorem stepRunsDecodedCommand : Obligations.StepRunsDecodedCommand :=
  fun _ _ _ _ hs h => step_of_decode_ok hs h

/-- Settles O9: with an empty queue nothing is fetched. -/
theorem idleStepKeepsState : Obligations.IdleStepKeepsState := by
  intro s hs
  simp [step, State.fetch, hs]

/-- The step on the encoding of a well-formed command. -/
theorem step_encode {i : Instr} (hi : i.WellFormed) {s : State} {rest : List Command} (hs : s.pending = encode i :: rest) :
    step s = exec i { s with pending := rest } :=
  step_of_decode_ok hs (decodeOfEncode i hi)

/-- Settles O10: by induction on the commands; what one of them does depends on the session alone (`exec_local`), so the commands
still queued make no difference to it. -/
theorem commandsRunInIssueOrder : Obligations.CommandsRunInIssueOrder := by
  intro is
  induction is with
  | nil =>
    rintro s rest - rfl
    rfl
  | cons i is ih =>
    intro s rest hwf hs
    obtain ⟨x, r, queued, alone⟩ :=
      exec_local i { s with pending := is.map encode ++ rest } { s with pending := rest } rfl
    have first : step s = .next _ := (step_encode (hwf i (by simp)) hs).trans queued
    rw [List.length_cons, runSteps_succ _ _ _ first, execAll_cons i is _ _ alone]
    exact ih _ rest (fun j hj => hwf j (by simp [hj])) rfl

end Sys2Proof.Machine
end

section
/-! Proofs for 40_controller.md sections 1 and 2 and 60_exceptions.md. Every command has one shape: a verdict (which error, if any),
and, when there is none, an effect on the session with its output. `exec_eq_reply` says so once; what a response may be, what a
command leaves unchanged and what every command keeps are facts about the verdict and the effect. -/

namespace Sys2Proof.Machine

/-! ## The verdict and the effect -/

/-- The accepted phases of every command (40_controller.md rule R91). -/
def acceptedIn : Instr → Phase → Bool
  | .reset, _ => true
  | .setkey _, p | .setnonce _, p => p.acceptsKeyNonce
  | .absorbAad _, p => p.acceptsAad
  | .encrypt _, p | .decrypt _, p | .computeTag, p => p.acceptsPayload
  | .verifyTag _, p => p.acceptsVerify

/-- `i` is VERIFY_TAG and its candidate is not TAG (40_controller.md rule R100). -/
def candidateDiffers : Instr → Session → Bool
  | .verifyTag inp, x => inp != x.tag.toList
  | _, _ => false

/-- The error a command raises, if any: the length, then the phase, then the tag (60_exceptions.md rule R194). -/
def verdict (i : Instr) (x : Session) : Option ErrorKind :=
  if i.format = .k ∧ i.operand.length ≠ 16 then some .invalidLength
  else if acceptedIn i x.phase = false then some .invalidState
  else if candidateDiffers i x = true then some .tagMismatch
  else none

/-- What an accepted command does to the session, and its output (40_controller.md rules R93 to R100). -/
def commandEffect : Instr → Session → Session × List Byte
  | .reset, x => (x.reset, [])
  | .setkey inp, x => (x.loadKey (operand16 inp), [])
  | .setnonce inp, x => (x.loadNonce (operand16 inp), [])
  | .absorbAad inp, x => aadEffect x inp
  | .encrypt inp, x => payloadEffect Session.encryptByte x inp
  | .decrypt inp, x => payloadEffect Session.decryptByte x inp
  | .computeTag, x => (x.start.closeAad.finalize, x.start.closeAad.finalize.tag.toList)
  | .verifyTag _, x => (x, [])

/-- The session after a command and its response. -/
def reply (i : Instr) (x : Session) : Session × Response :=
  match verdict i x with
  | some e => (x, ⟨e.status, []⟩)
  | none => ((commandEffect i x).1, ⟨.ok, (commandEffect i x).2⟩)

theorem reply_of_error {i : Instr} {x : Session} {e : ErrorKind} (h : verdict i x = some e) :
    reply i x = (x, ⟨e.status, []⟩) := by simp [reply, h]

theorem reply_of_accepted {i : Instr} {x : Session} (h : verdict i x = none) :
    reply i x = ((commandEffect i x).1, ⟨.ok, (commandEffect i x).2⟩) := by simp [reply, h]

theorem reply_fst (i : Instr) (x : Session) : (reply i x).1 = if verdict i x = none then (commandEffect i x).1 else x := by
  unfold reply
  split <;> simp [*]

/-- VERIFY_TAG's comparison finds a difference exactly when the candidate is not TAG. -/
theorem tagDifference_ne_zero_iff (t : Block) {inp : List Byte} (h : inp.length = 16) :
    tagDifference t inp ≠ 0 ↔ (inp != t.toList) = true := by
  rw [Ne, tagDifference_eq_zero t inp h, bne_iff_ne]

/-- The reply, by the three checks in their order. -/
theorem next_reply_eq (i : Instr) (s : State) :
    Host.Outcome.next ((s.withSession (reply i s.session).1).respond (reply i s.session).2) =
      if i.format = .k ∧ i.operand.length ≠ 16 then raise .invalidLength s
      else if acceptedIn i s.session.phase = false then raise .invalidState s
      else if candidateDiffers i s.session = true then raise .tagMismatch s
      else finish (commandEffect i s.session).1 (commandEffect i s.session).2 s := by
  unfold reply verdict
  split_ifs <;> rfl

/-- What every command does, said once: it completes with the session and the response of `reply`. -/
theorem exec_eq_reply (i : Instr) (s : State) :
    exec i s = .next ((s.withSession (reply i s.session).1).respond (reply i s.session).2) := by
  rw [next_reply_eq]
  cases i with
  | reset => rfl
  | setkey | setnonce | absorbAad | encrypt | decrypt | computeTag =>
    simp [exec_setkey, exec_setnonce, exec_absorbAad, exec_encrypt, exec_decrypt, exec_computeTag, Instr.format,
      Instr.operand, acceptedIn, candidateDiffers, commandEffect, aadEffect, payloadEffect]
  | verifyTag inp =>
    rw [exec_verifyTag]
    by_cases hlen : inp.length = 16
    · have passed : ¬((Instr.verifyTag inp).format = .k ∧ (Instr.verifyTag inp).operand.length ≠ 16) := fun h => h.2 hlen
      rw [if_neg (not_not.mpr hlen), if_neg passed]
      exact if_congr Iff.rfl rfl (if_congr (tagDifference_ne_zero_iff s.session.tag hlen) rfl rfl)
    · rw [if_pos hlen, if_pos ⟨rfl, hlen⟩]

/-- The response and the next state of a command that was seen to run. -/
theorem reply_of_exec {i : Instr} {s t : State} (h : exec i s = .next t) :
    t = (s.withSession (reply i s.session).1).respond (reply i s.session).2 := by
  rw [exec_eq_reply] at h
  exact (Host.Outcome.next.inj h).symm

theorem response_of_exec {i : Instr} {s t : State} {r : Response} (h : exec i s = .next t)
    (hr : t.responses = s.responses ++ [r]) : r = (reply i s.session).2 := by
  rw [reply_of_exec h] at hr
  simpa using hr.symm

/-- A response's status is the verdict's. -/
theorem reply_status (i : Instr) (x : Session) :
    (reply i x).2.status = match verdict i x with | some e => e.status | none => .ok := by
  unfold reply; split <;> rfl

theorem reply_status_eq_error_iff (i : Instr) (x : Session) (e : ErrorKind) :
    (reply i x).2.status = e.status ↔ verdict i x = some e := by
  rw [reply_status]
  cases verdict i x with
  | none => cases e <;> simp [ErrorKind.status]
  | some d => cases d <;> cases e <;> simp [ErrorKind.status]

theorem reply_status_eq_ok_iff (i : Instr) (x : Session) : (reply i x).2.status = .ok ↔ verdict i x = none := by
  rw [reply_status]
  cases verdict i x with
  | none => simp
  | some d => cases d <;> simp [ErrorKind.status]

/-! ## The verdict, case by case -/

theorem verdict_eq_invalidLength_iff (i : Instr) (x : Session) :
    verdict i x = some .invalidLength ↔ i.format = .k ∧ i.operand.length ≠ 16 := by
  unfold verdict; split_ifs <;> simp_all

theorem verdict_eq_invalidState_iff (i : Instr) (x : Session) :
    verdict i x = some .invalidState ↔ (i.format = .k → i.operand.length = 16) ∧ acceptedIn i x.phase = false := by
  unfold verdict; split_ifs <;> simp_all

theorem verdict_eq_tagMismatch_iff (i : Instr) (x : Session) :
    verdict i x = some .tagMismatch ↔
      (i.format = .k → i.operand.length = 16) ∧ acceptedIn i x.phase = true ∧ candidateDiffers i x = true := by
  unfold verdict; split_ifs <;> simp_all

theorem verdict_eq_none_iff (i : Instr) (x : Session) :
    verdict i x = none ↔
      (i.format = .k → i.operand.length = 16) ∧ acceptedIn i x.phase = true ∧ candidateDiffers i x = false := by
  unfold verdict; split_ifs <;> simp_all

end Sys2Proof.Machine
end

section
/-! Proofs for the obligations of 40_controller.md sections 1 and 2 and 60_exceptions.md that speak of one command. -/

namespace Sys2Proof.Machine

/-- The phase a payload command leaves. -/
theorem payloadEffect_encrypt_phase {x : Session} (l : List Byte) (h : x.phase.acceptsPayload = true) :
    (payloadEffect Session.encryptByte x l).1.phase = .processingPayload :=
  payloadEffect_phase Session.encryptByte_phase l h

theorem payloadEffect_decrypt_phase {x : Session} (l : List Byte) (h : x.phase.acceptsPayload = true) :
    (payloadEffect Session.decryptByte x l).1.phase = .processingPayload :=
  payloadEffect_phase Session.decryptByte_phase l h

/-- The spec's table is the verdict, with the phase the effect leaves (40_controller.md rule R91). -/
theorem matrix_eq_verdict (i : Instr) (x : Session) :
    matrix i x = match verdict i x with
      | some e => .error e
      | none => .ok (commandEffect i x).1.phase := by
  unfold matrix verdict
  split
  · rfl
  cases i with
  | reset => rfl
  | setkey | setnonce =>
    cases hp : x.phase <;> simp [acceptedIn, candidateDiffers, commandEffect, hp, Phase.acceptsKeyNonce]
  | absorbAad inp =>
    cases hp : x.phase <;>
      simp [acceptedIn, candidateDiffers, commandEffect, Phase.acceptsAad, aadEffect_phase inp, hp]
  | encrypt inp | decrypt inp =>
    cases hp : x.phase <;>
      simp [acceptedIn, candidateDiffers, commandEffect, Phase.acceptsPayload, payloadEffect_encrypt_phase inp,
        payloadEffect_decrypt_phase inp, hp]
  | computeTag => cases hp : x.phase <;> simp [acceptedIn, candidateDiffers, commandEffect, Phase.acceptsPayload]
  | verifyTag inp =>
    cases hp : x.phase <;> simp [acceptedIn, candidateDiffers, commandEffect, Phase.acceptsVerify, hp]
    split <;> simp_all

/-! ## What each command does when it is accepted (40_controller.md section 2) -/

/-- RESET leaves what the creation of a session with the same algorithm leaves (70_reset_and_hazards.md rule R210). -/
theorem Session.reset_eq_created (x : Session) : x.reset = Session.created x.alg := by
  simp [Session.reset, Session.created, engClear_eq_zero, Session.alg]

/-- Settles O11: RESET has one case. -/
theorem resetCompletes : Obligations.ResetCompletes := by
  intro s
  rw [exec_reset, finish_eq, Session.reset_eq_created]

theorem acceptsKeyNonce_of_phase {p : Phase} (h : p = .fresh ∨ p = .keyAndNonceSet) : p.acceptsKeyNonce = true := by
  rcases h with rfl | rfl <;> rfl

theorem acceptsPayload_of_phase {p : Phase} (h : p = .keyAndNonceSet ∨ p = .absorbingAad ∨ p = .processingPayload) :
    p.acceptsPayload = true := by
  rcases h with rfl | rfl | rfl <;> rfl

/-- Settles O12: by SETKEY's three cases. -/
theorem setkeyCompletes : Obligations.SetkeyCompletes := by
  intro s inp hlen hp
  refine ⟨operand16 inp, toList_operand16 inp hlen, ?_⟩
  simp [exec_setkey, hlen, acceptsKeyNonce_of_phase hp, finish_eq, Session.loadKey]

/-- Settles O13: by SETNONCE's three cases. -/
theorem setnonceCompletes : Obligations.SetnonceCompletes := by
  intro s inp hlen hp
  refine ⟨operand16 inp, toList_operand16 inp hlen, ?_⟩
  simp [exec_setnonce, hlen, acceptsKeyNonce_of_phase hp, finish_eq, Session.loadNonce]

/-- Settles O14: by what `Start()` and the absorbing loop do. -/
theorem absorbAadCompletes : Obligations.AbsorbAadCompletes := by
  refine fun s inp => ⟨fun hp => ?_, fun hp => ?_⟩
  · rw [exec_absorbAad, hp, if_neg (by decide), finish_eq, absorbBytes_eq]
    simp [Session.start, hp]
  · rw [exec_absorbAad, hp, if_neg (by decide), finish_eq, absorbBytes_eq, Session.start_of_ne _ (by simp [hp])]

/-- The session on which a payload command or COMPUTE_TAG works (40_controller.md rule R92). -/
theorem start_closeAad_eq {x : Session} (h : x.phase.acceptsPayload = true) :
    x.start.closeAad = { x with
      engine := openedEngine x, aadLen := openedCount x x.aadLen, payLen := openedCount x x.payLen,
      phase := .processingPayload } := by
  obtain ⟨engine, phase, keySet, nonceSet, key, nonce, aadLen, payLen, tag⟩ := x
  cases phase
  case fresh | finalized => cases h
  all_goals rfl

/-- The engine's operation on one payload byte, in one direction: `engEnc` or `engDec`. -/
abbrev PayloadByte := Word64 → Byte → Engine → Engine × Byte

/-- The session and the output of a payload command over `inp`, `f` being the engine's operation on one byte
(40_controller.md rules R97, R98). -/
def payloadResult (f : PayloadByte) (x : Session) (inp : List Byte) : Session × List Byte :=
  ({ x with
      engine := (payloadEngine f (openedCount x x.payLen) (openedEngine x) inp).1
      aadLen := openedCount x x.aadLen
      payLen := openedCount x x.payLen + BitVec.ofNat 64 inp.length
      phase := .processingPayload },
    (payloadEngine f (openedCount x x.payLen) (openedEngine x) inp).2)

/-- ENCRYPT's effect: the loop of the byte encryption, on the opened session. -/
theorem payloadEffect_encrypt_eq {x : Session} (h : x.phase.acceptsPayload = true) (inp : List Byte) :
    payloadEffect Session.encryptByte x inp = payloadResult engEnc x inp := by
  rw [payloadEffect, payloadBytes_encrypt_eq, start_closeAad_eq h, payloadResult]

/-- DECRYPT's effect: the loop of the byte decryption, on the opened session. -/
theorem payloadEffect_decrypt_eq {x : Session} (h : x.phase.acceptsPayload = true) (inp : List Byte) :
    payloadEffect Session.decryptByte x inp = payloadResult engDec x inp := by
  rw [payloadEffect, payloadBytes_decrypt_eq, start_closeAad_eq h, payloadResult]

@[simp] theorem length_payloadEngine (f : PayloadByte) (n : Word64) (e : Engine) (l : List Byte) :
    (payloadEngine f n e l).2.length = l.length := by
  induction l generalizing n e with
  | nil => rfl
  | cons b l ih => simp [payloadEngine, ih]

/-- Settles O15: ENCRYPT finishes with its effect. -/
theorem encryptCompletes : Obligations.EncryptCompletes := by
  intro s inp hp
  have accepted := acceptsPayload_of_phase hp
  refine ⟨_, length_payloadEngine _ _ _ _, rfl, ?_⟩
  rw [dataLaw_encrypt.exec_next s inp accepted, payloadEffect_encrypt_eq accepted, payloadResult]

/-- Settles O16: DECRYPT finishes with its effect. -/
theorem decryptCompletes : Obligations.DecryptCompletes := by
  intro s inp hp
  have accepted := acceptsPayload_of_phase hp
  refine ⟨_, length_payloadEngine _ _ _ _, rfl, ?_⟩
  rw [dataLaw_decrypt.exec_next s inp accepted, payloadEffect_decrypt_eq accepted, payloadResult]

/-- Settles O17: the finalisation of the opened session. -/
theorem computeTagCompletes : Obligations.ComputeTagCompletes := by
  intro s hp
  have accepted := acceptsPayload_of_phase hp
  refine ⟨_, rfl, ?_⟩
  simp [exec_computeTag, accepted, finish_eq, start_closeAad_eq accepted, Session.finalize]

/-- Settles O18: the comparison is zero exactly when the candidate is TAG. -/
theorem verifyTagCompletes : Obligations.VerifyTagCompletes := by
  intro s inp hlen hp
  by_cases equal : inp = s.session.tag.toList
  · have zero := (tagDifference_eq_zero s.session.tag inp hlen).mpr equal
    simp [exec_verifyTag, hlen, hp, Phase.acceptsVerify, zero, ← equal, finish_eq]
  · have differs := mt (tagDifference_eq_zero s.session.tag inp hlen).mp equal
    rw [exec_verifyTag, if_neg (by simp [hlen]), if_neg (by simp [hp, Phase.acceptsVerify]), if_pos differs, if_neg equal]
    rfl

/-! ## The responses (60_exceptions.md) -/

/-- Settles O19: the table is the verdict. -/
theorem phaseMatrix : Obligations.PhaseMatrix := by
  intro i s
  refine ⟨_, _, exec_eq_reply i s, rfl, ?_⟩
  rw [matrix_eq_verdict]
  cases h : verdict i s.session with
  | some e => simp [reply_of_error h]
  | none => simp [reply_of_accepted h]

/-- Settles O20: every command answers as `reply` says. -/
theorem oneResponsePerCommand : Obligations.OneResponsePerCommand :=
  fun i s => ⟨_, _, exec_eq_reply i s, rfl, rfl⟩

/-- Settles O21: a status other than `OK` comes from a verdict that is an error. -/
theorem errorsChangeNothing : Obligations.ErrorsChangeNothing := by
  intro i s t r h hr hne
  obtain rfl := response_of_exec h hr
  rw [reply_of_exec h]
  rw [Ne, reply_status_eq_ok_iff, ← ne_eq, Option.ne_none_iff_exists'] at hne
  obtain ⟨e, he⟩ := hne
  simp [reply_of_error he]

/-- Settles O22: the verdict is the length's exactly for a format K command of another length. -/
theorem invalidLengthExactly : Obligations.InvalidLengthExactly := by
  refine ⟨rfl, fun i s t r h hr => ?_, fun c hop hlen => decode_error (decodeFields_reservedLength hop hlen _)⟩
  rw [response_of_exec h hr]
  refine (reply_status_eq_error_iff i s.session .invalidLength).trans ?_
  rw [verdict_eq_invalidLength_iff]
  cases i <;> simp [Instr.format, Instr.operand]

/-- Settles O23: the verdict is the phase's exactly in the cells that do not accept the command. -/
theorem invalidStateExactly : Obligations.InvalidStateExactly := by
  intro i s t r h hr
  rw [response_of_exec h hr]
  refine (reply_status_eq_error_iff i s.session .invalidState).trans ?_
  rw [verdict_eq_invalidState_iff]
  cases i <;> cases hp : s.session.phase <;>
    simp [Instr.format, Instr.operand, acceptedIn, Phase.acceptsKeyNonce, Phase.acceptsAad, Phase.acceptsPayload,
      Phase.acceptsVerify]

theorem acceptsVerify_iff (p : Phase) : p.acceptsVerify = true ↔ p = .finalized := by
  cases p <;> decide

/-- Settles O24: the verdict is the tag's only for VERIFY_TAG, and no error changes the session. -/
theorem tagMismatchExactly : Obligations.TagMismatchExactly := by
  refine ⟨rfl, fun i s t r h hr => ?_⟩
  have status := reply_status_eq_error_iff i s.session .tagMismatch
  rw [response_of_exec h hr, reply_of_exec h]
  refine ⟨status.trans ?_, fun hs => by simp [reply_of_error (status.mp hs)]⟩
  rw [verdict_eq_tagMismatch_iff]
  cases i <;> simp [candidateDiffers, acceptedIn, acceptsVerify_iff, Instr.format, Instr.operand]
  tauto

/-- Two 16-byte strings are equal when their bytes are. -/
theorem eq_toList_iff (b : Block) {inp : List Byte} (h : inp.length = 16) :
    inp = b.toList ↔ ∀ j (hj : j < 16), b[j] = inp.getD j 0 := by
  constructor
  · rintro rfl j hj
    simp [hj]
  · intro hall
    refine List.ext_getElem (by simp [h]) fun j h1 h2 => ?_
    have := hall j (by omega)
    simp [this, h1]

/-- Settles O25: a wrong length is reported before anything else, and 16 bytes are loaded or compared whole. -/
theorem fixedOperandsReadWhole : Obligations.FixedOperandsReadWhole := by
  refine fun s inp => ⟨fun hlen i hi => ?_, fun hlen hp => ⟨?_, ?_⟩, fun hlen hp => ?_⟩
  · have operand : i.format = .k ∧ i.operand.length ≠ 16 := by
      simp only [List.mem_cons, List.not_mem_nil, or_false] at hi
      rcases hi with rfl | rfl | rfl <;> exact ⟨rfl, hlen⟩
    rw [exec_eq_reply, reply_of_error ((verdict_eq_invalidLength_iff i s.session).mpr operand)]
    rfl
  · refine ⟨(s.withSession (s.session.loadKey (operand16 inp))).respond ⟨.ok, []⟩, ?_, ?_⟩
    · rw [exec_setkey, if_neg (by simp [hlen]), if_neg (by simp [hp]), finish_eq]
    · exact (eq_toList_iff _ hlen).mp (toList_operand16 inp hlen).symm
  · refine ⟨(s.withSession (s.session.loadNonce (operand16 inp))).respond ⟨.ok, []⟩, ?_, ?_⟩
    · rw [exec_setnonce, if_neg (by simp [hlen]), if_neg (by simp [hp]), finish_eq]
    · exact (eq_toList_iff _ hlen).mp (toList_operand16 inp hlen).symm
  · rw [verifyTagCompletes s inp hlen hp, ← eq_toList_iff _ hlen]
    simp [State.respond]

/-- How many bytes an accepted command outputs (20_memory.md rule R51). -/
def outLength : Instr → Nat
  | .encrypt inp => inp.length
  | .decrypt inp => inp.length
  | .computeTag => 16
  | _ => 0

theorem length_commandEffect (i : Instr) (x : Session) : (commandEffect i x).2.length = outLength i := by
  cases i <;> simp [commandEffect, outLength, aadEffect, payloadEffect]

theorem length_reply (i : Instr) (x : Session) :
    (reply i x).2.out.length = if verdict i x = none then outLength i else 0 := by
  cases h : verdict i x with
  | some e => simp [reply_of_error h]
  | none => simp [reply_of_accepted h, length_commandEffect]

/-- Settles O26: an error outputs nothing, an accepted command as many bytes as its effect. -/
theorem outputLengths : Obligations.OutputLengths := by
  intro i s t r h hr
  obtain rfl := response_of_exec h hr
  cases hv : verdict i s.session with
  | none => cases i <;> simp [reply_of_accepted hv, length_commandEffect, outLength]
  | some e => cases e <;> simp [reply_of_error hv, ErrorKind.status]

/-- Commands of one opcode and one operand length have the same format, accepted phases and output length. -/
theorem same_of_opcode_eq {i j : Instr} (hop : i.opcode = j.opcode) (hlen : i.operand.length = j.operand.length) :
    i.format = j.format ∧ acceptedIn i = acceptedIn j ∧ outLength i = outLength j := by
  cases i <;> cases j <;> simp [Instr.opcode] at hop
  all_goals exact ⟨rfl, rfl, by simp_all [outLength, Instr.operand]⟩

/-- For an accepted command of one opcode the comparison with TAG comes out alike, if it does for VERIFY_TAG. -/
theorem candidateDiffers_eq {i j : Instr} {x y : Session} (hop : i.opcode = j.opcode) (hp : acceptedIn i x.phase = true)
    (htag : ∀ a b, i = .verifyTag a → j = .verifyTag b → x.phase = .finalized → (a = x.tag.toList ↔ b = y.tag.toList)) :
    candidateDiffers i x = candidateDiffers j y := by
  cases i <;> cases j <;> simp [Instr.opcode] at hop
  case verifyTag.verifyTag a b =>
    have same := htag a b rfl rfl ((acceptsVerify_iff _).mp hp)
    rw [Bool.eq_iff_iff, candidateDiffers, candidateDiffers, bne_iff_ne, bne_iff_ne, Ne, Ne, same]
  all_goals rfl

/-- Settles O32: the verdict reads the format, the length, the accepted phases and, for an accepted VERIFY_TAG, the comparison. -/
theorem responseShapeFollowsPhaseAndLength : Obligations.ResponseShapeFollowsPhaseAndLength := by
  intro i j s u hop hlen hp htag
  obtain ⟨format, accepted, out⟩ := same_of_opcode_eq hop hlen
  have same : verdict i s.session = verdict j u.session := by
    unfold verdict
    rw [← format, ← hlen, ← accepted, ← hp]
    cases ha : acceptedIn i s.session.phase with
    | false => simp
    | true => rw [candidateDiffers_eq hop ha htag]
  refine ⟨_, _, _, _, exec_eq_reply i s, exec_eq_reply j u, rfl, rfl, ?_, ?_⟩
  · rw [reply_status, reply_status, same]
  · rw [length_reply, length_reply, same, out]

end Sys2Proof.Machine
end

section
/-! Proofs for 10_state.md: the session's invariant, the "written by" column and the order of the phases. Each is a fact about the
effect of an accepted command, since an error writes nothing. -/

namespace Sys2Proof.Machine

/-! ## The invariant (10_state.md section 2) -/

theorem created_inv (a : Alg) : (Session.created a).Inv where
  fresh := by simp [Session.created]
  ready := by simp [Session.created]
  idle _ := by cases a <;> exact ⟨rfl, rfl, rfl⟩
  noPayload := by simp [Session.created]
  noTag _ := rfl
  noKey _ := rfl
  noNonce _ := rfl

/-- The invariant of a session whose operation has begun. -/
theorem inv_of_started {x : Session} (hfresh : x.phase ≠ .fresh) (hidle : x.phase ≠ .keyAndNonceSet)
    (hset : x.keySet = true ∧ x.nonceSet = true) (hpay : x.phase = .absorbingAad → x.payLen = 0)
    (htag : x.phase ≠ .finalized → x.tag = Block.zero) : x.Inv where
  fresh h := absurd h hfresh
  ready _ := hset
  idle h := absurd h (by simp [hfresh, hidle])
  noPayload := hpay
  noTag := htag
  noKey h := by simp [hset.1] at h
  noNonce h := by simp [hset.2] at h

section Effects
variable {x : Session} (h : x.Inv)
include h

/-- The invariant after a load: key and nonce are both set exactly when the session has reached `KeyAndNonceSet`
(40_controller.md rules R94, R95). -/
theorem Session.Inv.of_load {y : Session} (hp : x.phase.acceptsKeyNonce = true)
    (hphase : y.phase = if y.keySet = true ∧ y.nonceSet = true then .keyAndNonceSet else x.phase)
    (hset : x.keySet = true ∧ x.nonceSet = true → y.keySet = true ∧ y.nonceSet = true)
    (hsame : y.engine = x.engine ∧ y.aadLen = x.aadLen ∧ y.payLen = x.payLen ∧ y.tag = x.tag)
    (hkey : y.keySet = false → y.key = Block.zero) (hnonce : y.nonceSet = false → y.nonce = Block.zero) : y.Inv := by
  obtain ⟨engine, aadLen, payLen, tag⟩ := hsame
  have early : x.phase = .fresh ∨ x.phase = .keyAndNonceSet := by
    revert hp; cases x.phase <;> simp [Phase.acceptsKeyNonce]
  have notFinal : x.phase ≠ .finalized := by rcases early with e | e <;> simp [e]
  refine ⟨fun hf both => ?_, fun hf => ?_, fun _ => ?_, fun ha => ?_, fun _ => ?_, hkey, hnonce⟩
  · rw [hphase, if_pos both] at hf
    cases hf
  · by_contra notBoth
    rw [hphase, if_neg notBoth] at hf
    exact notBoth (hset (h.ready hf))
  · rw [engine, aadLen, payLen, Session.alg, engine]
    exact h.idle early
  · rw [hphase] at ha
    split at ha
    · cases ha
    · rcases early with e | e <;> simp [e] at ha
  · rw [tag]
    exact h.noTag notFinal

theorem Session.Inv.loadKey (k : Block) (hp : x.phase.acceptsKeyNonce = true) : (x.loadKey k).Inv :=
  h.of_load hp (by simp) (fun both => ⟨rfl, both.2⟩) (by simp) (by simp) (by simpa using h.noNonce)

theorem Session.Inv.loadNonce (n : Block) (hp : x.phase.acceptsKeyNonce = true) : (x.loadNonce n).Inv :=
  h.of_load hp (by simp) (fun both => ⟨both.1, rfl⟩) (by simp) (by simpa using h.noKey) (by simp)

theorem Session.Inv.absorb (l : List Byte) (hp : x.phase.acceptsAad = true) : (aadEffect x l).1.Inv := by
  have phase := aadEffect_phase l hp
  have notFresh : x.phase ≠ .fresh := fun hf => by simp [hf, Phase.acceptsAad] at hp
  refine inv_of_started (by simp [phase]) (by simp [phase]) (by simpa [aadEffect] using h.ready notFresh) (fun _ => ?_) fun _ => ?_
  · have : x.phase = .keyAndNonceSet ∨ x.phase = .absorbingAad := by
      revert hp; cases x.phase <;> simp [Phase.acceptsAad]
    rcases this with hk | ha
    · simp [aadEffect, Session.start_payLen, hk]
    · simp [aadEffect, Session.start_payLen, ha, h.noPayload ha]
  · have : x.phase ≠ .finalized := fun hf => by simp [hf, Phase.acceptsAad] at hp
    simp [aadEffect, h.noTag this]

/-- What the opened session keeps. -/
theorem Session.Inv.opened (hp : x.phase.acceptsPayload = true) :
    (x.keySet = true ∧ x.nonceSet = true) ∧ x.tag = Block.zero :=
  ⟨h.ready fun hf => by simp [hf, Phase.acceptsPayload] at hp,
    h.noTag fun hf => by simp [hf, Phase.acceptsPayload] at hp⟩

theorem Session.Inv.payload {f : Session → Byte → Session × Byte} (hphase : ∀ x b, (f x b).1.phase = x.phase)
    (hkey : ∀ x b, (f x b).1.keySet = x.keySet) (hnonce : ∀ x b, (f x b).1.nonceSet = x.nonceSet)
    (htag : ∀ x b, (f x b).1.tag = x.tag) (l : List Byte) (hp : x.phase.acceptsPayload = true) :
    (payloadEffect f x l).1.Inv := by
  have phase := payloadEffect_phase hphase l hp
  obtain ⟨⟨keySet, nonceSet⟩, tag⟩ := h.opened hp
  refine inv_of_started (by simp [phase]) (by simp [phase]) ⟨?_, ?_⟩ (by simp [phase]) fun _ => ?_
  · exact (payloadBytes_keeps f Session.keySet hkey _ l).trans (by simp [keySet])
  · exact (payloadBytes_keeps f Session.nonceSet hnonce _ l).trans (by simp [nonceSet])
  · exact (payloadBytes_keeps f Session.tag htag _ l).trans (by simp [tag])

/-- Every accepted command keeps the invariant. -/
theorem Session.Inv.commandEffect {i : Instr} (hv : verdict i x = none) : (commandEffect i x).1.Inv := by
  obtain ⟨-, accepted, -⟩ := (verdict_eq_none_iff i x).mp hv
  cases i with
  | reset => rw [Machine.commandEffect, Session.reset_eq_created]; exact created_inv x.alg
  | setkey inp => exact h.loadKey _ accepted
  | setnonce inp => exact h.loadNonce _ accepted
  | absorbAad inp => exact h.absorb inp accepted
  | encrypt inp =>
    exact h.payload Session.encryptByte_phase Session.encryptByte_keySet
      Session.encryptByte_nonceSet Session.encryptByte_tag inp accepted
  | decrypt inp =>
    exact h.payload Session.decryptByte_phase Session.decryptByte_keySet
      Session.decryptByte_nonceSet Session.decryptByte_tag inp accepted
  | computeTag =>
    exact inv_of_started (x := x.start.closeAad.finalize) (by simp) (by simp) (by simpa using (h.opened accepted).1) (by simp)
      (by simp)
  | verifyTag inp => exact h

/-- Every command keeps the invariant: an error because it writes nothing. -/
theorem Session.Inv.reply (i : Instr) : (reply i x).1.Inv := by
  cases hv : verdict i x with
  | some e => simpa [reply_of_error hv] using h
  | none => simpa [reply_of_accepted hv] using h.commandEffect hv

end Effects

/-- A step that answers a state was idle, or executed a command. -/
theorem step_cases {s t : State} (h : step s = .next t) :
    t = s ∨ ∃ (c : Command) (rest : List Command) (i : Instr), s.pending = c :: rest ∧ decode c = .ok i ∧
      exec i { s with pending := rest } = .next t := by
  cases hs : s.pending with
  | nil =>
    rw [idleStepKeepsState s hs] at h
    exact .inl (Host.Outcome.next.inj h).symm
  | cons c rest =>
    cases hc : decode c with
    | error e => rw [step_of_decode_error hs hc] at h; cases h
    | ok i => exact .inr ⟨c, rest, i, rfl, hc, step_of_decode_ok hs hc ▸ h⟩

/-- Settles O29: a step is idle or executes one command, and every command keeps the invariant. -/
theorem stepKeepsSessionInvariant : Obligations.StepKeepsSessionInvariant := by
  intro s t h hstep
  rcases step_cases hstep with rfl | ⟨c, rest, i, -, -, hexec⟩
  · exact h
  · rw [reply_of_exec hexec]
    exact h.reply i

/-- Settles O30: the creation state meets the invariant, and reset is a creation. -/
theorem creationMeetsInvariant : Obligations.CreationMeetsInvariant :=
  ⟨created_inv, created_inv Config.alg⟩

/-- Settles O31: the fields are read off. -/
theorem creationState : Obligations.CreationState := by
  intro a
  have zero : Block.zero.toList = List.replicate 16 0 := by decide
  refine ⟨?_, rfl, rfl, rfl, zero, zero, zero, rfl, rfl, ?_, rfl, rfl⟩
  · cases a <;> rfl
  · cases a
    · exact .inl rfl
    · exact .inr rfl

/-! ## What a command leaves unchanged (10_state.md section 1) -/

theorem openedCount_of_ne {x : Session} (h : x.phase ≠ .keyAndNonceSet) (n : Word64) : openedCount x n = n := if_neg h

/-- No command writes ALG (10_state.md rule R28). -/
theorem commandEffect_alg (i : Instr) (x : Session) : (commandEffect i x).1.alg = x.alg := by
  cases i with
  | reset => exact engClear_alg x.engine
  | setkey | setnonce | verifyTag => rfl
  | absorbAad inp => simp [commandEffect, aadEffect]
  | encrypt inp =>
    exact (payloadBytes_keeps Session.encryptByte Session.alg (fun x b => engEnc_alg _ b x.engine) _ inp).trans (by simp)
  | decrypt inp =>
    exact (payloadBytes_keeps Session.decryptByte Session.alg (fun x b => engDec_alg _ b x.engine) _ inp).trans (by simp)
  | computeTag => exact (engFinal_alg _ _ _).trans ((Session.closeAad_alg _).trans (Session.start_alg x))

/-- The "written by" column for a command that moves the session from `x` to `y`. -/
structure WritesOnlyItsFields (i : Instr) (x y : Session) : Prop where
  key : i ≠ .reset → (∀ k, i ≠ .setkey k) → y.key = x.key ∧ y.keySet = x.keySet
  nonce : i ≠ .reset → (∀ n, i ≠ .setnonce n) → y.nonce = x.nonce ∧ y.nonceSet = x.nonceSet
  tag : i ≠ .reset → i ≠ .computeTag → y.tag = x.tag
  fixed : (∃ l, i = .setkey l ∨ i = .setnonce l ∨ i = .verifyTag l) →
    y.engine = x.engine ∧ y.aadLen = x.aadLen ∧ y.payLen = x.payLen
  absorb : (∃ l, i = .absorbAad l) → y.payLen = openedCount x x.payLen
  payload : (∃ l, i = .encrypt l ∨ i = .decrypt l ∨ i = .computeTag) → y.aadLen = openedCount x x.aadLen
  compute : i = .computeTag → y.payLen = openedCount x x.payLen
  verify : (∃ l, i = .verifyTag l) → y = x

theorem writesOnlyItsFields_of_accepted {i : Instr} {x : Session} (hv : verdict i x = none) :
    WritesOnlyItsFields i x (commandEffect i x).1 := by
  obtain ⟨-, accepted, -⟩ := (verdict_eq_none_iff i x).mp hv
  cases i with
  | reset | setkey | setnonce | verifyTag => constructor <;> simp [commandEffect]
  | absorbAad inp => constructor <;> simp [commandEffect, aadEffect, Session.start_payLen, openedCount]
  | encrypt inp => constructor <;> simp [commandEffect, payloadEffect_encrypt_eq accepted, payloadResult]
  | decrypt inp => constructor <;> simp [commandEffect, payloadEffect_decrypt_eq accepted, payloadResult]
  | computeTag => constructor <;> simp [commandEffect, start_closeAad_eq accepted]

/-- An error writes nothing; a data command that raises one is not in `KeyAndNonceSet`. -/
theorem writesOnlyItsFields_of_error {i : Instr} {x : Session} {e : ErrorKind} (hv : verdict i x = some e) :
    WritesOnlyItsFields i x x := by
  by_cases hp : x.phase = .keyAndNonceSet
  · cases i <;> constructor <;>
      simp_all [verdict, Instr.format, acceptedIn, candidateDiffers, Phase.acceptsAad, Phase.acceptsPayload]
  · constructor <;> simp [openedCount_of_ne hp]

/-- Settles O27: by the "written by" column of an accepted command and of an error. -/
theorem writersOfState : Obligations.WritersOfState := by
  intro i s t h
  rw [reply_of_exec h]
  have column : WritesOnlyItsFields i s.session (reply i s.session).1 := by
    cases hv : verdict i s.session with
    | some e => simpa [reply_of_error hv] using writesOnlyItsFields_of_error hv
    | none => simpa [reply_of_accepted hv] using writesOnlyItsFields_of_accepted hv
  have alg : (reply i s.session).1.alg = s.session.alg := by
    unfold reply
    split
    · rfl
    · exact commandEffect_alg i s.session
  obtain ⟨key, nonce, tag, fixed, absorb, payload, compute, verify⟩ := column
  exact ⟨alg, key, nonce, tag, fixed, absorb, payload, compute, verify⟩

theorem code_le_of_acceptsKeyNonce {p : Phase} : p.acceptsKeyNonce = true → p.code ≤ Phase.keyAndNonceSet.code := by
  cases p <;> decide

theorem code_le_of_acceptsAad {p : Phase} : p.acceptsAad = true → p.code ≤ Phase.absorbingAad.code := by
  cases p <;> decide

theorem code_le_of_acceptsPayload {p : Phase} : p.acceptsPayload = true → p.code ≤ Phase.processingPayload.code := by
  cases p <;> decide

theorem code_le_finalized (p : Phase) : p.code ≤ Phase.finalized.code := by cases p <;> decide

/-- An accepted command other than RESET leads to no earlier phase (40_controller.md rule R91). -/
theorem phase_le_commandEffect {i : Instr} {x : Session} (hv : verdict i x = none) (hi : i ≠ .reset) :
    x.phase.code ≤ (commandEffect i x).1.phase.code := by
  obtain ⟨-, accepted, -⟩ := (verdict_eq_none_iff i x).mp hv
  cases i with
  | reset => exact absurd rfl hi
  | setkey inp =>
    rw [commandEffect, Session.loadKey_phase]
    split
    · exact code_le_of_acceptsKeyNonce accepted
    · exact BitVec.le_refl x.phase.code
  | setnonce inp =>
    rw [commandEffect, Session.loadNonce_phase]
    split
    · exact code_le_of_acceptsKeyNonce accepted
    · exact BitVec.le_refl x.phase.code
  | absorbAad inp => exact aadEffect_phase inp accepted ▸ code_le_of_acceptsAad accepted
  | encrypt inp => exact payloadEffect_encrypt_phase inp accepted ▸ code_le_of_acceptsPayload accepted
  | decrypt inp => exact payloadEffect_decrypt_phase inp accepted ▸ code_le_of_acceptsPayload accepted
  | computeTag => exact code_le_finalized x.phase
  | verifyTag inp => exact BitVec.le_refl x.phase.code

/-- Settles O28: an error keeps the phase, and an accepted command leads forward. -/
theorem phaseMovesForward : Obligations.PhaseMovesForward := by
  intro i s t h
  rw [reply_of_exec h]
  cases hv : verdict i s.session with
  | some e => exact .inr (by simp [reply_of_error hv])
  | none =>
    by_cases hi : i = .reset
    · subst hi
      exact .inl ⟨rfl, by simp [reply_of_accepted hv, commandEffect]⟩
    · exact .inr (by simpa [reply_of_accepted hv] using phase_le_commandEffect hv hi)

end Sys2Proof.Machine
end

section
/-! Proofs about the engines' procedures on one byte (40_controller.md section 3, 10_state.md rule R26): both directions use one
keystream byte, and the counters are read modulo 8. -/

namespace Sys2Proof.Machine

/-! ## Loops that collect output bits -/

/-- A loop that steps a state and writes output bit `j` in turn `j`: its state is the plain loop's, its bit `j` is the output of the
state before turn `j`. -/
theorem loop_setBit {σ : Type} {w : Nat} (next : Nat → σ → σ) (out : Nat → σ → Bool) (s : σ) (v : BitVec w) (n : Nat)
    (hn : n ≤ w) :
    (loop n (fun j a => (next j a.1, setBit a.2 j (out j a.1))) (s, v)).1 = loop n next s ∧
      ∀ i, (loop n (fun j a => (next j a.1, setBit a.2 j (out j a.1))) (s, v)).2.getLsbD i =
        if i < n then out i (loop i next s) else v.getLsbD i := by
  induction n with
  | zero => simp
  | succ n ih =>
    obtain ⟨state, bits⟩ := ih (by omega)
    refine ⟨by rw [loop_succ, loop_succ, state], fun i => ?_⟩
    rw [loop_succ, getLsbD_setBit, state, bits]
    by_cases hin : i = n
    · subst hin
      rw [if_pos ⟨rfl, hn⟩, if_pos (Nat.lt_succ_self i)]
    · have : i < n + 1 ↔ i < n := by omega
      simp [hin, this]

/-! ## ACORN-128: encryption and decryption of one byte (41_acorn128.md rules R138, R139) -/

/-- The register part of one bit of `EngEnc`. -/
def acornEncNext (p : Byte) (j : Nat) (s : AcornReg) : AcornReg := acornNext (p.getLsbD j) true false s

/-- The register part of one bit of `EngDec`. -/
def acornDecNext (c : Byte) (j : Nat) (s : AcornReg) : AcornReg := acornNext (c.getLsbD j ^^ acornKs s) true false s

theorem acornEnc_fst (p : Byte) (s : AcornReg) : (acornEnc p s).1 = loop 8 (acornEncNext p) s :=
  (loop_setBit (acornEncNext p) (fun j s => p.getLsbD j ^^ acornKs s) s (0 : Byte) 8 (le_refl 8)).1

theorem getLsbD_acornEnc_snd (p : Byte) (s : AcornReg) {j : Nat} (hj : j < 8) :
    (acornEnc p s).2.getLsbD j = (p.getLsbD j ^^ acornKs (loop j (acornEncNext p) s)) :=
  ((loop_setBit (acornEncNext p) (fun j s => p.getLsbD j ^^ acornKs s) s (0 : Byte) 8 (le_refl 8)).2 j).trans (if_pos hj)

theorem acornDec_fst (c : Byte) (s : AcornReg) : (acornDec c s).1 = loop 8 (acornDecNext c) s :=
  (loop_setBit (acornDecNext c) (fun j s => c.getLsbD j ^^ acornKs s) s (0 : Byte) 8 (le_refl 8)).1

theorem getLsbD_acornDec_snd (c : Byte) (s : AcornReg) {j : Nat} (hj : j < 8) :
    (acornDec c s).2.getLsbD j = (c.getLsbD j ^^ acornKs (loop j (acornDecNext c) s)) :=
  ((loop_setBit (acornDecNext c) (fun j s => c.getLsbD j ^^ acornKs s) s (0 : Byte) 8 (le_refl 8)).2 j).trans (if_pos hj)

/-- Decrypting the ciphertext byte, the register goes through the states of the encryption. -/
theorem loop_acornDecNext (p : Byte) (s : AcornReg) (n : Nat) (hn : n ≤ 8) :
    loop n (acornDecNext (acornEnc p s).2) s = loop n (acornEncNext p) s := by
  induction n with
  | zero => rfl
  | succ n ih =>
    rw [loop_succ, loop_succ, ih (by omega), acornDecNext, getLsbD_acornEnc_snd p s (by omega), Bool.xor_assoc, Bool.xor_self,
      Bool.xor_false, acornEncNext]

theorem acornDec_acornEnc (p : Byte) (s : AcornReg) : acornDec (acornEnc p s).2 s = ((acornEnc p s).1, p) := by
  refine Prod.ext ?_ (BitVec.eq_of_getLsbD_eq fun j hj => ?_)
  · rw [acornDec_fst, acornEnc_fst, loop_acornDecNext p s 8 (le_refl 8)]
  · rw [getLsbD_acornDec_snd _ s hj, loop_acornDecNext p s j (by omega), getLsbD_acornEnc_snd p s hj, Bool.xor_assoc,
      Bool.xor_self, Bool.xor_false]

/-! ## The bytes of a word (20_memory.md rule R54) -/

theorem getLsbD_wordByte (w : Word64) (j i : Nat) :
    (wordByte w j).getLsbD i = (decide (i < 8) && w.getLsbD (byteShift j + i)) := by
  simp [wordByte]

theorem getLsbD_byteAt (b : Byte) {j i : Nat} (hi : i < 64) :
    (byteAt b j).getLsbD i = (decide (byteShift j ≤ i) && b.getLsbD (i - byteShift j)) := by
  by_cases h : byteShift j ≤ i <;> simp [byteAt, h, hi]

theorem wordByte_xor (v w : Word64) (j : Nat) : wordByte (v ^^^ w) j = wordByte v j ^^^ wordByte w j := by
  refine BitVec.eq_of_getLsbD_eq fun i hi => ?_
  simp only [getLsbD_wordByte, BitVec.getLsbD_xor, hi, decide_true, Bool.true_and]

/-- A byte in place `j` of a word is read back at `j` and nowhere else. -/
theorem wordByte_byteAt (b : Byte) {j k : Nat} (hj : j < 8) (hk : k < 8) :
    wordByte (byteAt b j) k = if k = j then b else 0#8 := by
  refine BitVec.eq_of_getLsbD_eq fun i hi => ?_
  rw [getLsbD_wordByte, getLsbD_byteAt b (by unfold byteShift; omega)]
  split
  next h => subst h; simp [hi]
  next h =>
    by_cases hle : byteShift j ≤ byteShift k + i
    · have : 8 ≤ byteShift k + i - byteShift j := by unfold byteShift at *; omega
      simp [BitVec.getLsbD_of_ge b _ this]
    · simp [hle]

/-- Two words are equal when their eight bytes are. -/
theorem eq_of_wordByte_eq {v w : Word64} (h : ∀ k < 8, wordByte v k = wordByte w k) : v = w := by
  refine BitVec.eq_of_getLsbD_eq fun i hi => ?_
  have := congrArg (BitVec.getLsbD · (i % 8)) (h (7 - i / 8) (by omega))
  have place : byteShift (7 - i / 8) + i % 8 = i := by unfold byteShift; omega
  have low : i % 8 < 8 := by omega
  simpa only [getLsbD_wordByte, place, low, decide_true, Bool.true_and] using this

theorem wordByte_setWordByte (w : Word64) (b : Byte) {j k : Nat} (hj : j < 8) (hk : k < 8) :
    wordByte (setWordByte w j b) k = if k = j then b else wordByte w k := by
  have hor (u v : Word64) : wordByte (u ||| v) k = wordByte u k ||| wordByte v k := by
    refine BitVec.eq_of_getLsbD_eq fun i hi => ?_
    simp only [getLsbD_wordByte, BitVec.getLsbD_or, hi, decide_true, Bool.true_and]
  have hand (u v : Word64) : wordByte (u &&& ~~~v) k = wordByte u k &&& ~~~wordByte v k := by
    refine BitVec.eq_of_getLsbD_eq fun i hi => ?_
    have : byteShift k + i < 64 := by unfold byteShift; omega
    simp only [getLsbD_wordByte, BitVec.getLsbD_and, BitVec.getLsbD_not, hi, this, decide_true, Bool.true_and]
  have ones : ~~~(0xFF : Byte) = 0#8 := by decide
  rw [setWordByte, hor, hand, wordByte_byteAt b hj hk, wordByte_byteAt 0xFF hj hk]
  split
  · rw [ones, BitVec.and_zero, BitVec.zero_or]
  · rw [BitVec.not_zero, BitVec.and_allOnes, BitVec.or_zero]

/-- Writing the exclusive or of a byte is exclusive-oring the byte in place. -/
theorem setWordByte_wordByte_xor (w : Word64) (b : Byte) {j : Nat} (hj : j < 8) :
    setWordByte w j (wordByte (w ^^^ byteAt b j) j) = w ^^^ byteAt b j := by
  refine eq_of_wordByte_eq fun k hk => ?_
  rw [wordByte_setWordByte _ _ hj hk]
  split
  next h => rw [h]
  next h => rw [wordByte_xor, wordByte_byteAt b hj hk, if_neg h, BitVec.xor_zero]

theorem blockPos_lt (n : Word64) : blockPos n < 8 := Nat.mod_lt _ (by omega)

theorem asconDec_asconEnc (n : Word64) (p : Byte) (x : AsconReg) :
    asconDec n (asconEnc n p x).2 x = ((asconEnc n p x).1, p) := by
  have hj := blockPos_lt n
  refine Prod.ext ?_ ?_
  · simp only [asconDec, asconEnc, setWordByte_wordByte_xor x.x0 p hj]
  · simp only [asconDec, asconEnc, wordByte_xor, wordByte_byteAt p hj hj, if_true]
    rw [← BitVec.xor_assoc, BitVec.xor_self, BitVec.zero_xor]

/-! ## Both directions, for both algorithms (40_controller.md rule R101) -/

/-- Settles O34: by the two algorithms' rules. -/
theorem decryptByteUndoesEncryptByte : Obligations.DecryptByteUndoesEncryptByte := by
  intro n p e
  cases e with
  | acorn s => simp [engDec, engEnc, acornDec_acornEnc]
  | ascon x => simp [engDec, engEnc, asconDec_asconEnc]

/-- Every byte is the ciphertext of some plaintext byte: encryption is injective on the 256 bytes. -/
theorem engEnc_surjective (n : Word64) (e : Engine) : Function.Surjective fun p => (engEnc n p e).2 := by
  have : Finite Byte := Finite.of_injective BitVec.toFin fun a b h => BitVec.toFin_inj.mp h
  refine Finite.injective_iff_surjective.mp fun p q h => ?_
  have := decryptByteUndoesEncryptByte n p e
  rw [show (engEnc n p e).2 = (engEnc n q e).2 from h, decryptByteUndoesEncryptByte n q e] at this
  exact (congrArg Prod.snd this).symm

theorem engEnc_engDec (n : Word64) (e : Engine) (c : Byte) : engEnc n (engDec n c e).2 e = ((engDec n c e).1, c) := by
  obtain ⟨p, rfl⟩ := engEnc_surjective n e c
  rw [decryptByteUndoesEncryptByte n p e]

/-- Decryption of a whole output returns the input and leaves the same engine. -/
theorem payloadEngine_dec_enc (n : Word64) (e : Engine) (l : List Byte) :
    payloadEngine engDec n e (payloadEngine engEnc n e l).2 = ((payloadEngine engEnc n e l).1, l) := by
  induction l generalizing n e with
  | nil => rfl
  | cons b l ih => simp only [payloadEngine, decryptByteUndoesEncryptByte n b e, ih]

/-- Settles O55: by the byte's round trip in both orders, and its induction along the string. -/
theorem bothDirectionsInOneEngine : Obligations.BothDirectionsInOneEngine := by
  refine ⟨fun n e p => decryptByteUndoesEncryptByte n p e, engEnc_engDec, fun n e p => ?_, fun s inp h => ?_⟩
  · refine ⟨p ^^^ (engEnc n p e).2, ?_, ?_⟩
    · rw [← BitVec.xor_assoc, BitVec.xor_self, BitVec.zero_xor]
    · have key : p ^^^ (p ^^^ (engEnc n p e).2) = (engEnc n p e).2 := by
        rw [← BitVec.xor_assoc, BitVec.xor_self, BitVec.zero_xor]
      rw [key, decryptByteUndoesEncryptByte, BitVec.xor_comm p, ← BitVec.xor_assoc, BitVec.xor_self, BitVec.zero_xor]
  · have hp : s.session.phase.acceptsPayload = true := by
      obtain ⟨hC, -⟩ | ⟨-, hp⟩ := h
      · exact absurd (congrFun hC []) (by decide)
      · exact acceptsPayload_of_phase hp
    refine ⟨_, _, _, dataLaw_encrypt.exec_next s inp hp, rfl, dataLaw_decrypt.exec_next s _ hp, ?_, ?_⟩
    · simp [payloadEffect_encrypt_eq hp, payloadEffect_decrypt_eq hp, payloadResult, payloadEngine_dec_enc]
    · simp [payloadEffect_encrypt_eq hp, payloadEffect_decrypt_eq hp, payloadResult, payloadEngine_dec_enc]

/-! ## The counters (10_state.md rule R26) -/

/-- Settles O33: the procedures read a counter through `blockPos`, and the close also tests it against 0. -/
theorem countersReadModuloEight : Obligations.CountersReadModuloEight := by
  refine ⟨fun n m b k e hpos => ?_, fun n => ?_, fun n m b k x => ⟨rfl, rfl, rfl, rfl, rfl⟩⟩
  · have pos : blockPos n = blockPos m := hpos
    cases e with
    | acorn s => exact ⟨rfl, rfl, rfl, rfl, fun _ => rfl⟩
    | ascon x =>
      refine ⟨?_, ?_, ?_, ?_, fun hzero => ?_⟩
      · simp only [engAad, asconAad, pos]
      · simp only [engEnc, asconEnc, pos]
      · simp only [engDec, asconDec, pos]
      · simp only [engFinal, asconFinal, pos]
      · simp only [engCloseAad, asconCloseAad, pos, hzero]
  · exact blockPos_succ n

end Sys2Proof.Machine
end

section
/-! Proofs about several commands in a row (40_controller.md section 3, 20_memory.md sections 3 and 4): cuts, repetitions and orders
of commands, RESET, and interleaved sessions. -/

namespace Sys2Proof.Machine

/-- A command of a list is executed, then the others from the state it leaves. -/
theorem execAll_cons_reply (i : Instr) (is : List Instr) (s : State) :
    execAll (i :: is) s = execAll is ((s.withSession (reply i s.session).1).respond (reply i s.session).2) :=
  execAll_cons i is s _ (exec_eq_reply i s)

/-! ## Data commands in every state (40_controller.md rules R103, R104) -/

/-- Every data command obeys the law of the data commands, and answers `InvalidState` in the other phases. -/
theorem exists_dataLaw_total {C : List Byte → Instr} (hC : C ∈ [Instr.absorbAad, Instr.encrypt, Instr.decrypt]) :
    ∃ accepts effect, DataLaw C accepts effect ∧
      ∀ (s : State) (inp : List Byte), accepts s.session.phase = false →
        exec (C inp) s = .next (s.respond ⟨.invalidState, []⟩) := by
  simp only [List.mem_cons, List.not_mem_nil, or_false] at hC
  rcases hC with rfl | rfl | rfl
  · exact ⟨_, _, dataLaw_absorbAad, fun s inp h => by rw [exec_absorbAad, if_pos h]; rfl⟩
  · exact ⟨_, _, dataLaw_encrypt, fun s inp h => by rw [exec_encrypt, if_pos h]; rfl⟩
  · exact ⟨_, _, dataLaw_decrypt, fun s inp h => by rw [exec_decrypt, if_pos h]; rfl⟩

/-- Settles O37: where the command is accepted by the law of the data commands, elsewhere because all three fail. -/
theorem chunkingIndependence : Obligations.ChunkingIndependence := by
  intro s l m C hC
  obtain ⟨accepts, effect, law, refused⟩ := exists_dataLaw_total hC
  cases h : accepts s.session.phase with
  | true =>
    refine ⟨_, _, _, _, _, ⟨.ok, (effect (effect s.session l).1 m).2⟩, law.exec_next s (l ++ m) h, rfl, law.exec_next s l h,
      rfl, law.exec_next _ m (law.accepts_effect s.session l h), ?_, ?_, ?_, rfl, rfl⟩
    · exact List.append_assoc _ _ _
    · simp [law.effect_append _ _ _ h]
    · simp [law.effect_append _ _ _ h]
  | false =>
    exact ⟨_, _, _, _, _, _, refused s (l ++ m) h, rfl, refused s l h, rfl, refused _ m h, List.append_assoc _ _ _,
      rfl, rfl, rfl, rfl⟩

/-- Commands that all fail in a phase leave the session alone and output nothing. -/
theorem execAll_refused {C : List Byte → Instr} {accepts : Phase → Bool}
    (refused : ∀ (s : State) (inp : List Byte), accepts s.session.phase = false →
      exec (C inp) s = .next (s.respond ⟨.invalidState, []⟩))
    (bs : List (List Byte)) (s : State) (h : accepts s.session.phase = false) :
    ∃ (v : State) (rs : List Response), execAll (bs.map C) s = .next v ∧ v.responses = s.responses ++ rs ∧
      v.session = s.session ∧ rs.flatMap Response.out = [] := by
  induction bs generalizing s with
  | nil => exact ⟨s, [], rfl, by simp, rfl, rfl⟩
  | cons b bs ih =>
    obtain ⟨v, rs, hv, hrs, hx, hout⟩ := ih (s.respond ⟨.invalidState, []⟩) h
    exact ⟨v, ⟨.invalidState, []⟩ :: rs, (execAll_cons _ _ s _ (refused s b h)).trans hv, by simp [hrs], hx, by simp [hout]⟩

/-- Settles O38: the cut into single bytes, in the phases that accept the command and in the others. -/
theorem streamingByteByByte : Obligations.StreamingByteByByte := by
  intro s inp hne C hC
  obtain ⟨accepts, effect, law, refused⟩ := exists_dataLaw_total hC
  have cut : (inp.map fun b => C [b]) = (inp.map fun b => [b]).map C := by
    rw [List.map_map]; rfl
  have whole : (inp.map fun b => [b]).flatten = inp := List.flatMap_singleton' inp
  rw [cut]
  cases h : accepts s.session.phase with
  | true =>
    obtain ⟨v, rs, hv, hrs, hx, hout, -⟩ := law.execAll_parts (bs := inp.map fun b => [b]) (by simpa using hne) s h
    rw [whole] at hx hout
    exact ⟨_, v, _, rs, law.exec_next s inp h, rfl, hv, hrs, hx, hout.symm⟩
  | false =>
    obtain ⟨v, rs, hv, hrs, hx, hout⟩ := execAll_refused refused (inp.map fun b => [b]) s h
    exact ⟨_, v, _, rs, refused s inp h, rfl, hv, hrs, hx, hout.symm⟩

/-! ## Empty data commands before COMPUTE_TAG (40_controller.md rule R104) -/

theorem Session.start_phase_ne (x : Session) : x.start.phase ≠ .keyAndNonceSet := by
  rw [Session.start_phase]; split <;> simp_all

theorem Session.start_start (x : Session) : x.start.start = x.start := Session.start_of_ne _ x.start_phase_ne

/-- An opened session is not opened again. -/
theorem Session.start_closeAad_opened {x : Session} (h : x.phase.acceptsPayload = true) :
    x.start.closeAad.start.closeAad = x.start.closeAad := by
  have phase := Session.start_closeAad_phase_of_acceptsPayload h
  rw [Session.start_of_ne _ (by simp [phase]), Session.closeAad_of_ne _ (by simp [phase])]

/-- What COMPUTE_TAG answers depends on the opened session alone. -/
theorem reply_computeTag_congr {x y : Session} (hx : x.phase.acceptsPayload = true) (hy : y.phase.acceptsPayload = true)
    (h : y.start.closeAad = x.start.closeAad) : reply .computeTag y = reply .computeTag x := by
  have accepted (z : Session) (hz : z.phase.acceptsPayload = true) : verdict .computeTag z = none :=
    (verdict_eq_none_iff _ z).mpr ⟨fun h => (nomatch h), hz, rfl⟩
  rw [reply_of_accepted (accepted x hx), reply_of_accepted (accepted y hy), commandEffect, commandEffect, h]

theorem acceptsPayload_of_acceptsAad {p : Phase} : p.acceptsAad = true → p.acceptsPayload = true := by
  cases p <;> decide

/-- An empty data command leaves COMPUTE_TAG's answer as it was. -/
theorem reply_computeTag_after_empty {i : Instr} (hi : i ∈ [Instr.absorbAad [], Instr.encrypt [], Instr.decrypt []])
    (x : Session) : reply .computeTag (reply i x).1 = reply .computeTag x := by
  cases hv : verdict i x with
  | some e => rw [reply_of_error hv]
  | none =>
    rw [reply_of_accepted hv]
    obtain ⟨-, accepted, -⟩ := (verdict_eq_none_iff i x).mp hv
    simp only [List.mem_cons, List.not_mem_nil, or_false] at hi
    rcases hi with rfl | rfl | rfl
    · have hx := acceptsPayload_of_acceptsAad accepted
      have phase := Session.start_phase_of_acceptsAad accepted
      have opened : x.start.start.closeAad = x.start.closeAad := by rw [Session.start_start]
      exact reply_computeTag_congr hx (congrArg Phase.acceptsPayload phase) opened
    all_goals
      have phase := Session.start_closeAad_phase_of_acceptsPayload accepted
      exact reply_computeTag_congr accepted (congrArg Phase.acceptsPayload phase) (Session.start_closeAad_opened accepted)

/-- Settles O39: what an empty data command opens, COMPUTE_TAG would have opened. -/
theorem emptyDataKeepsTag : Obligations.EmptyDataKeepsTag := by
  intro s i hi
  have same := reply_computeTag_after_empty hi s.session
  refine ⟨_, _, _, _, _, exec_eq_reply .computeTag s, rfl, exec_eq_reply i s, rfl, exec_eq_reply .computeTag _, ?_, ?_⟩
  · simp [same]
  · simp [same]

/-! ## Repeated and reordered keys and nonces (40_controller.md rules R94, R95) -/

theorem Session.loadKey_loadKey (x : Session) (k k' : Block) : (x.loadKey k).loadKey k' = x.loadKey k' := by
  simp only [Session.loadKey]
  split <;> rfl

theorem Session.loadNonce_loadNonce (x : Session) (n n' : Block) : (x.loadNonce n).loadNonce n' = x.loadNonce n' := by
  simp only [Session.loadNonce]
  split <;> rfl

theorem Session.loadNonce_loadKey (x : Session) (k n : Block) : (x.loadNonce n).loadKey k = (x.loadKey k).loadNonce n := rfl

theorem Session.loadKey_accepts {x : Session} (k : Block) (h : x.phase.acceptsKeyNonce = true) :
    (x.loadKey k).phase.acceptsKeyNonce = true := by
  rw [Session.loadKey_phase]; split
  · rfl
  · exact h

theorem Session.loadNonce_accepts {x : Session} (n : Block) (h : x.phase.acceptsKeyNonce = true) :
    (x.loadNonce n).phase.acceptsKeyNonce = true := by
  rw [Session.loadNonce_phase]; split
  · rfl
  · exact h

theorem verdict_setkey_eq_none_iff (l : List Byte) (x : Session) :
    verdict (.setkey l) x = none ↔ l.length = 16 ∧ x.phase.acceptsKeyNonce = true := by
  simp [verdict_eq_none_iff, Instr.format, Instr.operand, acceptedIn, candidateDiffers]

theorem verdict_setnonce_eq_none_iff (l : List Byte) (x : Session) :
    verdict (.setnonce l) x = none ↔ l.length = 16 ∧ x.phase.acceptsKeyNonce = true := by
  simp [verdict_eq_none_iff, Instr.format, Instr.operand, acceptedIn, candidateDiffers]

/-- The session after SETKEY. -/
theorem reply_setkey_fst (l : List Byte) (x : Session) :
    (reply (.setkey l) x).1 = if l.length = 16 ∧ x.phase.acceptsKeyNonce = true then x.loadKey (operand16 l) else x := by
  simp only [reply_fst, verdict_setkey_eq_none_iff, commandEffect]

/-- The session after SETNONCE. -/
theorem reply_setnonce_fst (l : List Byte) (x : Session) :
    (reply (.setnonce l) x).1 = if l.length = 16 ∧ x.phase.acceptsKeyNonce = true then x.loadNonce (operand16 l) else x := by
  simp only [reply_fst, verdict_setnonce_eq_none_iff, commandEffect]

theorem Session.created_alg (a : Alg) : (Session.created a).alg = a := by cases a <;> rfl

theorem Session.reset_reset (x : Session) : x.reset.reset = x.reset := by
  simp only [Session.reset_eq_created, Session.created_alg]

/-- The four commands that may be repeated: an accepted one is accepted again and changes nothing more. -/
theorem reply_idempotent {i : Instr} {l : List Byte}
    (hi : i ∈ [Instr.reset, Instr.setkey l, Instr.setnonce l, Instr.verifyTag l]) (x : Session) :
    reply i (reply i x).1 = reply i x := by
  cases hv : verdict i x with
  | some e => rw [reply_of_error hv, reply_of_error hv]
  | none =>
    obtain ⟨hlen, accepted, same⟩ := (verdict_eq_none_iff i x).mp hv
    rw [reply_of_accepted hv]
    have again (hp : acceptedIn i (commandEffect i x).1.phase = true)
        (hd : candidateDiffers i (commandEffect i x).1 = false)
        (he : commandEffect i (commandEffect i x).1 = commandEffect i x) :
        reply i (commandEffect i x).1 = ((commandEffect i x).1, ⟨.ok, (commandEffect i x).2⟩) := by
      rw [reply_of_accepted ((verdict_eq_none_iff i _).mpr ⟨hlen, hp, hd⟩), he]
    simp only [List.mem_cons, List.not_mem_nil, or_false] at hi
    rcases hi with rfl | rfl | rfl | rfl
    · exact again rfl rfl (by simp [commandEffect, Session.reset_reset])
    · exact again (Session.loadKey_accepts _ accepted) rfl (by simp [commandEffect, Session.loadKey_loadKey])
    · exact again (Session.loadNonce_accepts _ accepted) rfl (by simp [commandEffect, Session.loadNonce_loadNonce])
    · exact again accepted same rfl

/-- Settles O40: the reply to the second execution is the reply to the first. -/
theorem repeatableCommandsIdempotent : Obligations.RepeatableCommandsIdempotent := by
  intro s l i hi
  have same := reply_idempotent hi s.session
  refine ⟨_, _, _, exec_eq_reply i s, rfl, exec_eq_reply i _, ?_, ?_⟩
  · simp [same]
  · simp [same]

/-- Settles O41: a later load overwrites an earlier one, loads of key and nonce commute, and a command that fails loads nothing. -/
theorem lastWriteWinsInEitherOrder : Obligations.LastWriteWinsInEitherOrder := by
  intro s l m hm
  refine ⟨⟨_, _, _, exec_eq_reply _ s, exec_eq_reply _ s, exec_eq_reply _ _, ?_⟩,
    ⟨_, _, _, exec_eq_reply _ s, exec_eq_reply _ s, exec_eq_reply _ _, ?_⟩, ?_⟩
  · simp only [State.respond_session, State.withSession_session, reply_setkey_fst, hm]
    by_cases hp : s.session.phase.acceptsKeyNonce = true
    · by_cases hl : l.length = 16 <;> simp [hp, hl, Session.loadKey_accepts, Session.loadKey_loadKey, -Session.loadKey_phase]
    · simp [hp]
  · simp only [State.respond_session, State.withSession_session, reply_setnonce_fst, hm]
    by_cases hp : s.session.phase.acceptsKeyNonce = true
    · by_cases hl : l.length = 16 <;>
        simp [hp, hl, Session.loadNonce_accepts, Session.loadNonce_loadNonce, -Session.loadNonce_phase]
    · simp [hp]
  · refine ⟨_, _, by rw [execAll_cons_reply, execAll_cons_reply, execAll_nil],
      by rw [execAll_cons_reply, execAll_cons_reply, execAll_nil], ?_⟩
    simp only [State.respond_session, State.withSession_session, reply_setkey_fst, reply_setnonce_fst, hm]
    by_cases hp : s.session.phase.acceptsKeyNonce = true
    · by_cases hl : l.length = 16 <;>
        simp [hp, hl, Session.loadKey_accepts, Session.loadNonce_accepts, Session.loadNonce_loadKey, -Session.loadKey_phase,
          -Session.loadNonce_phase]
    · simp [hp]

/-! ## RESET (40_controller.md rule R93) -/

/-- Settles O36: RESET leaves the creation state, and what follows depends on the session alone. -/
theorem aeadForgetsThePast : Obligations.AeadForgetsThePast := by
  intro s u is halg
  have hs := resetCompletes s
  have hu := resetCompletes u
  rw [← halg] at hu
  obtain ⟨t, v, rs, ht, hv, hts, hvs, e⟩ := execAll_local is
    ((s.withSession (Session.created s.session.alg)).respond ⟨.ok, []⟩)
    ((u.withSession (Session.created s.session.alg)).respond ⟨.ok, []⟩) rfl
  exact ⟨t, v, ⟨.ok, []⟩ :: rs, (execAll_cons _ _ s _ hs).trans ht, (execAll_cons _ _ u _ hu).trans hv,
    by simp [hts], by simp [hvs], e⟩

/-! ## Several sessions (20_memory.md rule R61) -/

section Sessions
variable {n : Nat}

theorem get_set_self (sys : Sessions n) (k : Fin n) (t : State) : Vector.get (sys.set k.val t) k = t := by
  simp [Vector.get_eq_getElem]

theorem get_set_of_ne (sys : Sessions n) {j k : Fin n} (h : j ≠ k) (t : State) :
    Vector.get (sys.set k.val t) j = sys.get j := by
  have : k.val ≠ j.val := fun e => h (Fin.ext e.symm)
  simp [Vector.get_eq_getElem, Vector.getElem_set_ne, this]

/-- A step of session `k` is that session's own step, in its place. -/
theorem stepSession_eq_next_iff (sys sys' : Sessions n) (k : Fin n) :
    stepSession sys k = .next sys' ↔ ∃ t, step (sys.get k) = .next t ∧ sys' = sys.set k.val t := by
  unfold stepSession
  cases step (sys.get k) <;> simp [eq_comm]

theorem runSessions_cons {sys sys' : Sessions n} {k : Fin n} (ks : List (Fin n)) (h : stepSession sys k = .next sys') :
    runSessions (k :: ks) sys = runSessions ks sys' := by simp only [runSessions, h]

/-- An interleaving that completes has a first step. -/
theorem exists_of_runSessions_cons {sys sys' : Sessions n} {k : Fin n} {ks : List (Fin n)}
    (h : runSessions (k :: ks) sys = .next sys') :
    ∃ t, step (sys.get k) = .next t ∧ runSessions ks (sys.set k.val t) = .next sys' := by
  cases hs : step (sys.get k) with
  | next t =>
    rw [runSessions_cons ks ((stepSession_eq_next_iff sys _ k).mpr ⟨t, hs, rfl⟩)] at h
    exact ⟨t, rfl, h⟩
  | fault r => simp [runSessions, stepSession, hs] at h
  | refused r => simp [runSessions, stepSession, hs] at h

theorem exists_of_runSteps_succ {m : Nat} {s t : State} (h : runSteps (m + 1) s = .next t) :
    ∃ u, step s = .next u ∧ runSteps m u = .next t := by
  cases hs : step s with
  | next u => exact ⟨u, rfl, runSteps_succ m s u hs ▸ h⟩
  | fault r => simp [runSteps, hs] at h
  | refused r => simp [runSteps, hs] at h

/-- In an interleaving that completes, every session takes the steps it takes alone. -/
theorem runSteps_of_runSessions (ks : List (Fin n)) (sys sys' : Sessions n) (h : runSessions ks sys = .next sys') (j : Fin n) :
    runSteps (ks.count j) (sys.get j) = .next (sys'.get j) := by
  induction ks generalizing sys with
  | nil => cases h; rfl
  | cons k ks ih =>
    obtain ⟨t, hstep, hrest⟩ := exists_of_runSessions_cons h
    have rest := ih _ hrest
    by_cases hjk : j = k
    · subst hjk
      rw [get_set_self] at rest
      rw [List.count_cons_self, runSteps_succ _ _ t hstep, rest]
    · rw [get_set_of_ne sys hjk] at rest
      rw [List.count_cons_of_ne (Ne.symm hjk), rest]

/-- An interleaving completes when every session's own run does. -/
theorem exists_runSessions (ks : List (Fin n)) (sys : Sessions n)
    (h : ∀ j : Fin n, ∃ t : State, runSteps (ks.count j) (sys.get j) = .next t) :
    ∃ sys' : Sessions n, runSessions ks sys = .next sys' := by
  induction ks generalizing sys with
  | nil => exact ⟨sys, rfl⟩
  | cons k ks ih =>
    obtain ⟨t, ht⟩ := h k
    rw [List.count_cons_self] at ht
    obtain ⟨u, hstep, hrest⟩ := exists_of_runSteps_succ ht
    rw [runSessions_cons ks ((stepSession_eq_next_iff sys _ k).mpr ⟨u, hstep, rfl⟩)]
    refine ih _ fun j => ?_
    by_cases hjk : j = k
    · subst hjk
      exact ⟨t, by rw [get_set_self, hrest]⟩
    · rw [get_set_of_ne sys hjk]
      simpa [List.count_cons_of_ne (Ne.symm hjk)] using h j

end Sessions

/-- Settles O52: a step changes one session as it would alone, and the interleavings follow by induction on the order. -/
theorem sessionsIndependent : Obligations.SessionsIndependent := by
  refine ⟨fun n sys k sys' h => ?_, fun n ks sys sys' h => runSteps_of_runSessions ks sys sys' h, fun n => exists_runSessions⟩
  obtain ⟨t, hstep, rfl⟩ := (stepSession_eq_next_iff sys sys' k).mp h
  exact ⟨by rw [get_set_self, hstep], fun j hjk => get_set_of_ne sys hjk t⟩

end Sys2Proof.Machine
end

section
/-! Proofs about the expansions of AEAD_ENCRYPT and AEAD_DECRYPT (30_encoding.md rule R79): what their six first commands do, as one
formula for both directions, and the round trip (40_controller.md rule R101). -/

namespace Sys2Proof.Machine

/-! ## Commands in a row, by the session alone -/

/-- The session replaced and responses appended. -/
def State.answer (s : State) (x : Session) (rs : List Response) : State :=
  { s with session := x, responses := s.responses ++ rs }

@[simp] theorem State.answer_session (s : State) (x : Session) (rs : List Response) : (s.answer x rs).session = x := rfl

@[simp] theorem State.answer_responses (s : State) (x : Session) (rs : List Response) :
    (s.answer x rs).responses = s.responses ++ rs := rfl

theorem State.answer_nil (s : State) : s.answer s.session [] = s := by simp [State.answer]

/-- A command of known effect, after others. -/
theorem execAll_cons_answer {i : Instr} {x y : Session} {r : Response}
    (h : ∀ u : State, u.session = x → exec i u = .next ((u.withSession y).respond r)) (is : List Instr) (s : State)
    (rs : List Response) : execAll (i :: is) (s.answer x rs) = execAll is (s.answer y (rs ++ [r])) := by
  have after : ((s.answer x rs).withSession y).respond r = s.answer y (rs ++ [r]) := by
    simp [State.answer, State.withSession, State.respond]
  rw [execAll_cons i is _ _ (h _ rfl), after]

/-! ## RESET, SETKEY, SETNONCE, ABSORB_AAD -/

/-- A session just reset that has received a key and a nonce. -/
def keyedSession (alg : Alg) (k n : Block) : Session :=
  { Session.created alg with phase := .keyAndNonceSet, keySet := true, nonceSet := true, key := k, nonce := n }

/-- The same session after its associated data. -/
def absorbedSession (alg : Alg) (k n : Block) (a : List Byte) : Session :=
  { keyedSession alg k n with
    phase := .absorbingAad, engine := aadEngine 0 (engInit k n (.zero alg)) a, aadLen := BitVec.ofNat 64 a.length }

/-- The four commands with which both expansions begin (30_encoding.md rule R79). -/
theorem execAll_absorbed {k n : List Byte} (hk : k.length = 16) (hn : n.length = 16) (a : List Byte) (is : List Instr)
    (s : State) :
    execAll (.reset :: .setkey k :: .setnonce n :: .absorbAad a :: is) s =
      execAll is (s.answer (absorbedSession s.session.alg (blockOfList k) (blockOfList n) a)
        [⟨.ok, []⟩, ⟨.ok, []⟩, ⟨.ok, []⟩, ⟨.ok, []⟩]) := by
  have block {l : List Byte} (h : l.length = 16) : operand16 l = blockOfList l := by
    rw [operand16, memRead, List.drop_zero, List.take_of_length_le h.le]
  have reset (u : State) (hu : u.session = s.session) :
      exec .reset u = .next ((u.withSession (Session.created s.session.alg)).respond ⟨.ok, []⟩) := hu ▸ resetCompletes u
  have key (u : State) (hu : u.session = Session.created s.session.alg) :
      exec (.setkey k) u =
        .next ((u.withSession ((Session.created s.session.alg).loadKey (blockOfList k))).respond ⟨.ok, []⟩) := by
    rw [exec_setkey, hu, if_neg (by simp [hk]), if_neg (by simp [Session.created, Phase.acceptsKeyNonce]), block hk, finish_eq]
  have nonce (u : State) (hu : u.session = (Session.created s.session.alg).loadKey (blockOfList k)) :
      exec (.setnonce n) u =
        .next ((u.withSession (keyedSession s.session.alg (blockOfList k) (blockOfList n))).respond ⟨.ok, []⟩) := by
    rw [exec_setnonce, hu, if_neg (by simp [hn]), if_neg (by simp [Session.created, Phase.acceptsKeyNonce]), block hn, finish_eq]
    rfl
  have absorb (u : State) (hu : u.session = keyedSession s.session.alg (blockOfList k) (blockOfList n)) :
      exec (.absorbAad a) u =
        .next ((u.withSession (absorbedSession s.session.alg (blockOfList k) (blockOfList n) a)).respond ⟨.ok, []⟩) := by
    rw [(absorbAadCompletes u a).1 (by rw [hu]; rfl), hu]
    rfl
  conv_lhs => rw [← s.answer_nil]
  rw [execAll_cons_answer reset, execAll_cons_answer key, execAll_cons_answer nonce, execAll_cons_answer absorb]
  rfl

/-! ## The payload and the tag -/

/-- The engine in which the payload begins. -/
def aeadOpened (alg : Alg) (k n : Block) (a : List Byte) : Engine :=
  engCloseAad (BitVec.ofNat 64 a.length) (aadEngine 0 (engInit k n (.zero alg)) a)

/-- The engine and the output after the payload, in the direction `f`. -/
def aeadPayload (f : PayloadByte) (alg : Alg) (k n : Block) (a p : List Byte) : Engine × List Byte :=
  payloadEngine f 0 (aeadOpened alg k n a) p

/-- The last engine and the tag. -/
def aeadFinal (f : PayloadByte) (alg : Alg) (k n : Block) (a p : List Byte) : Engine × Block :=
  engFinal k (BitVec.ofNat 64 p.length) (aeadPayload f alg k n a p).1

/-- The session after the payload. -/
def processedSession (f : PayloadByte) (alg : Alg) (k n : Block) (a p : List Byte) : Session :=
  { absorbedSession alg k n a with
    phase := .processingPayload, engine := (aeadPayload f alg k n a p).1, payLen := BitVec.ofNat 64 p.length }

/-- The session after COMPUTE_TAG. -/
def finalSession (f : PayloadByte) (alg : Alg) (k n : Block) (a p : List Byte) : Session :=
  { processedSession f alg k n a p with
    phase := .finalized, engine := (aeadFinal f alg k n a p).1, tag := (aeadFinal f alg k n a p).2 }

section
variable {alg : Alg} {k n : Block} {a : List Byte}

theorem payloadResult_absorbed (f : PayloadByte) (p : List Byte) :
    payloadResult f (absorbedSession alg k n a) p = (processedSession f alg k n a p, (aeadPayload f alg k n a p).2) := by
  simp [payloadResult, processedSession, aeadPayload, aeadOpened, absorbedSession, keyedSession, Session.created, openedEngine,
    openedCount]

theorem exec_encrypt_absorbed (p : List Byte) (u : State) (hu : u.session = absorbedSession alg k n a) :
    exec (.encrypt p) u = .next ((u.withSession (processedSession engEnc alg k n a p)).respond
      ⟨.ok, (aeadPayload engEnc alg k n a p).2⟩) := by
  have hp : u.session.phase.acceptsPayload = true := by rw [hu]; rfl
  rw [dataLaw_encrypt.exec_next u p hp, payloadEffect_encrypt_eq hp, hu, payloadResult_absorbed]

theorem exec_decrypt_absorbed (p : List Byte) (u : State) (hu : u.session = absorbedSession alg k n a) :
    exec (.decrypt p) u = .next ((u.withSession (processedSession engDec alg k n a p)).respond
      ⟨.ok, (aeadPayload engDec alg k n a p).2⟩) := by
  have hp : u.session.phase.acceptsPayload = true := by rw [hu]; rfl
  rw [dataLaw_decrypt.exec_next u p hp, payloadEffect_decrypt_eq hp, hu, payloadResult_absorbed]

theorem exec_computeTag_processed {f : PayloadByte} {p : List Byte} (u : State)
    (hu : u.session = processedSession f alg k n a p) :
    exec .computeTag u = .next ((u.withSession (finalSession f alg k n a p)).respond
      ⟨.ok, (aeadFinal f alg k n a p).2.toList⟩) := by
  obtain ⟨tag, rfl, h⟩ := computeTagCompletes u (by rw [hu]; exact .inr (.inr rfl))
  rw [h, hu]
  rfl

/-- VERIFY_TAG of the tag just computed. -/
theorem exec_verifyTag_final {f : PayloadByte} {p : List Byte} (u : State) (hu : u.session = finalSession f alg k n a p) :
    exec (.verifyTag (aeadFinal f alg k n a p).2.toList) u =
      .next ((u.withSession (finalSession f alg k n a p)).respond ⟨.ok, []⟩) := by
  have same : (aeadFinal f alg k n a p).2.toList = u.session.tag.toList := by rw [hu]; rfl
  rw [verifyTagCompletes u _ Vector.length_toList (by rw [hu]; rfl), if_pos same, ← hu, State.withSession_self]

end

/-- The responses of the six first commands of an expansion whose outputs are `c` and `tag`. -/
def aeadResponses (c : List Byte) (tag : Block) : List Response :=
  [⟨.ok, []⟩, ⟨.ok, []⟩, ⟨.ok, []⟩, ⟨.ok, []⟩, ⟨.ok, c⟩, ⟨.ok, tag.toList⟩]

/-- The expansion of AEAD_ENCRYPT completes with the ciphertext and the tag of the formulas above. -/
theorem execAll_aeadEncrypt {k n : List Byte} (hk : k.length = 16) (hn : n.length = 16) (a p : List Byte) (s : State) :
    execAll (Pseudo.aeadEncrypt k n a p).expand s =
      .next (s.answer (finalSession engEnc s.session.alg (blockOfList k) (blockOfList n) a p)
        (aeadResponses (aeadPayload engEnc s.session.alg (blockOfList k) (blockOfList n) a p).2
          (aeadFinal engEnc s.session.alg (blockOfList k) (blockOfList n) a p).2)) := by
  rw [Pseudo.expand, execAll_absorbed hk hn, execAll_cons_answer (exec_encrypt_absorbed p),
    execAll_cons_answer exec_computeTag_processed]
  rfl

/-- So does the expansion of AEAD_DECRYPT, in the other direction, before its VERIFY_TAG. -/
theorem execAll_aeadDecrypt {k n : List Byte} (hk : k.length = 16) (hn : n.length = 16) (a c t : List Byte) (s : State) :
    execAll (Pseudo.aeadDecrypt k n a c t).expand s =
      execAll [.verifyTag t] (s.answer (finalSession engDec s.session.alg (blockOfList k) (blockOfList n) a c)
        (aeadResponses (aeadPayload engDec s.session.alg (blockOfList k) (blockOfList n) a c).2
          (aeadFinal engDec s.session.alg (blockOfList k) (blockOfList n) a c).2)) := by
  rw [Pseudo.expand, execAll_absorbed hk hn, execAll_cons_answer (exec_decrypt_absorbed c),
    execAll_cons_answer exec_computeTag_processed]
  rfl

/-! ## The round trip (40_controller.md rule R101) -/

theorem aeadPayload_dec_enc (alg : Alg) (k n : Block) (a p : List Byte) :
    aeadPayload engDec alg k n a (aeadPayload engEnc alg k n a p).2 = ((aeadPayload engEnc alg k n a p).1, p) :=
  payloadEngine_dec_enc 0 (aeadOpened alg k n a) p

theorem length_aeadPayload (f : PayloadByte) (alg : Alg) (k n : Block) (a p : List Byte) :
    (aeadPayload f alg k n a p).2.length = p.length := length_payloadEngine f 0 _ p

/-- The two directions compute one tag. -/
theorem aeadFinal_dec_enc (alg : Alg) (k n : Block) (a p : List Byte) :
    aeadFinal engDec alg k n a (aeadPayload engEnc alg k n a p).2 = aeadFinal engEnc alg k n a p := by
  rw [aeadFinal, aeadPayload_dec_enc, length_aeadPayload, aeadFinal]

/-- Settles O35: both expansions in closed form, and the payload's round trip between them. -/
theorem aeadRoundTrip : Obligations.AeadRoundTrip := by
  intro s u k n a p halg hk hn
  have decrypted := execAll_aeadDecrypt hk hn a (aeadPayload engEnc s.session.alg (blockOfList k) (blockOfList n) a p).2
    (aeadFinal engEnc s.session.alg (blockOfList k) (blockOfList n) a p).2.toList u
  rw [← halg, ← aeadFinal_dec_enc, execAll_cons_answer exec_verifyTag_final, aeadFinal_dec_enc, aeadPayload_dec_enc] at decrypted
  exact ⟨_, _, _, _, length_aeadPayload _ _ _ _ _ _, Vector.length_toList, execAll_aeadEncrypt hk hn a p s, rfl, decrypted, rfl⟩

end Sys2Proof.Machine
end

section
/-! Proofs for 41_acorn128.md sections 1 to 3 and 20_memory.md rule R53: the step bit by bit, the bit order, and a whole operation as
its schedule of bit steps. -/

namespace Sys2Proof.Machine

/-! ## The step (41_acorn128.md rules R130 to R133) -/

/-- Settles O42: the eight values of the three bits. -/
theorem majorityAndChoice : Obligations.MajorityAndChoice := by
  unfold Obligations.MajorityAndChoice
  decide

/-- The register after the six replacements, bit by bit. -/
theorem getLsbD_acornLinear (s : AcornReg) (j : Nat) :
    (acornLinear s).getLsbD j =
      if j = 61 then acornT61 s else if j = 107 then acornT107 s else if j = 154 then acornT154 s
      else if j = 193 then acornT193 s else if j = 230 then acornT230 s else if j = 289 then acornT289 s
      else s.getLsbD j := by
  simp [acornLinear, getLsbD_setBit]

/-- The register after a step, bit by bit. -/
theorem getLsbD_acornStep (m ca cb : Bool) (s : AcornReg) {j : Nat} (hj : j < 293) :
    (acornStep m ca cb s).1.getLsbD j =
      if j = 60 then acornT61 s else if j = 106 then acornT107 s else if j = 153 then acornT154 s
      else if j = 192 then acornT193 s else if j = 229 then acornT230 s else if j = 288 then acornT289 s
      else if j = 292 then acornFeedback s ca cb ^^ m else s.getLsbD (j + 1) := by
  have shift : (acornLinear s >>> 1).getLsbD j = (acornLinear s).getLsbD (j + 1) := by
    rw [BitVec.getLsbD_ushiftRight, Nat.add_comm]
  rw [acornStep, getLsbD_setBit, shift, getLsbD_acornLinear]
  by_cases last : j = 292
  · subst last; rfl
  · simp only [last, false_and, if_false, Nat.reduceEqDiff]

/-- Each replacement reads bits that no earlier one has written, so the in-place form is the parallel one. -/
theorem acornStepInPlace_eq (m ca cb : Bool) (s : AcornReg) : acornStepInPlace m ca cb s = acornStep m ca cb s := by
  simp [acornStepInPlace, acornStep, acornLinear, acornFeedback, acornKs, acornT289, acornT230, acornT193, acornT154,
    acornT107, acornT61]

/-- Settles O43: the bits of the step, and the in-place form. -/
theorem acornStepBitByBit : Obligations.AcornStepBitByBit := by
  intro m ca cb s b t289 t230 t193 t154 t107 t61 ks f
  exact ⟨rfl, fun j hj => getLsbD_acornStep m ca cb s hj, acornStepInPlace_eq m ca cb s, fun _ _ _ => rfl,
    by decide +kernel, by decide +kernel⟩

/-- Registers that agree on the taps have the same replacements, keystream bit and feedback. -/
theorem acorn_bits_eq_of_taps {s u : AcornReg} (h : ∀ j ∈ acornTaps, s.getLsbD j = u.getLsbD j) :
    acornT289 s = acornT289 u ∧ acornT230 s = acornT230 u ∧ acornT193 s = acornT193 u ∧ acornT154 s = acornT154 u ∧
      acornT107 s = acornT107 u ∧ acornT61 s = acornT61 u ∧ acornKs s = acornKs u ∧
      ∀ ca cb, acornFeedback s ca cb = acornFeedback u ca cb := by
  simp only [acornTaps, List.forall_mem_cons, List.not_mem_nil, false_implies, implies_true, and_true] at h
  obtain ⟨h0, h12, h23, h61, h66, h107, h111, h154, h160, h193, h196, h230, h235, h244, h289⟩ := h
  simp only [acornFeedback, acornKs, acornT289, acornT230, acornT193, acornT154, acornT107, acornT61, h0, h12, h23, h61, h66,
    h107, h111, h154, h160, h193, h196, h230, h235, h244, h289, implies_true, and_self]

/-- Settles O44: every written bit is made of taps, and every other bit is the one above it. -/
theorem acornTapPositions : Obligations.AcornTapPositions := by
  refine ⟨fun m ca cb s u h => ?_, fun m ca cb s j hj hw => ?_⟩
  · obtain ⟨t289, t230, t193, t154, t107, t61, ks, feedback⟩ := acorn_bits_eq_of_taps h
    refine ⟨ks, fun j hj => ?_⟩
    have inRange : ∀ j ∈ acornWrites, j < 293 := by decide
    rw [getLsbD_acornStep m ca cb s (inRange j hj), getLsbD_acornStep m ca cb u (inRange j hj), t289, t230, t193, t154, t107,
      t61, feedback]
    simp only [acornWrites, List.mem_cons, List.not_mem_nil, or_false] at hj
    rcases hj with rfl | rfl | rfl | rfl | rfl | rfl | rfl <;> simp only [Nat.reduceEqDiff, if_true, if_false]
  · rw [getLsbD_acornStep m ca cb s hj]
    simp only [acornWrites, List.mem_cons, List.not_mem_nil, or_false, not_or] at hw
    obtain ⟨h60, h106, h153, h192, h229, h288, h292⟩ := hw
    simp only [h60, h106, h153, h192, h229, h288, h292, if_false]

/-! ## The bits of byte strings, least significant bit first (20_memory.md rule R53) -/

/-- Rows of eight, one after the other. -/
theorem flatMap_range_eight {α : Type} (f : Nat → α) (n : Nat) :
    ((List.range n).flatMap fun i => (List.range 8).map fun j => f (8 * i + j)) = (List.range (8 * n)).map f := by
  induction n with
  | zero => rfl
  | succ n ih =>
    rw [List.range_succ (n := n), List.flatMap_append, ih, Nat.mul_succ, List.range_add, List.map_append, List.map_map]
    simp [Function.comp_def]

theorem bitsOf_eq_map_range (l : List Byte) :
    bitsOf l = (List.range (8 * l.length)).map fun i => (l.getD (i / 8) 0).getLsbD (i % 8) := by
  have bytes : l = (List.range l.length).map fun i => l.getD i 0 := by
    refine List.ext_getElem (by simp) fun i h1 h2 => ?_
    simp [h1]
  rw [← flatMap_range_eight]
  conv_lhs => rw [bytes]
  rw [bitsOf, List.flatMap_map]
  refine List.flatMap_congr fun i _ => List.map_congr_left fun j hj => ?_
  have : j < 8 := List.mem_range.mp hj
  rw [show (8 * i + j) / 8 = i by omega, show (8 * i + j) % 8 = j by omega]

/-- A register's bit string. -/
theorem bitsOf_toList (b : Block) : bitsOf b.toList = (List.range 128).map (blockBit b) := by
  rw [bitsOf_eq_map_range, Vector.length_toList]
  rfl

theorem blockBit_blockOfBits (v : BitVec 128) {i : Nat} (hi : i < 128) : blockBit (blockOfBits v) i = v.getLsbD i := by
  have hbyte : i / 8 < 16 := by omega
  have hbit : i % 8 < 8 := by omega
  have place : 8 * (i / 8) + i % 8 = i := by omega
  rw [blockBit, blockByte_eq _ _ hbyte, blockOfBits, Vector.getElem_ofFn, BitVec.getLsbD_extractLsb', place]
  simp [hbit]

/-- Settles O51: by the quotient and the remainder of the bit's number. -/
theorem acornBitOrderLsbFirst : Obligations.AcornBitOrderLsbFirst := by
  refine ⟨fun b i j _ hj => ?_, fun v i hi => blockBit_blockOfBits v hi, bitsOf_toList⟩
  rw [blockBit, show (8 * i + j) / 8 = i by omega, show (8 * i + j) % 8 = j by omega]

end Sys2Proof.Machine
end

section
/-! Proof for 41_acorn128.md rule R134: a whole ACORN-128 operation is its schedule of bit steps. Each procedure of the engine is a row
of the schedule; the rows are put together by `acornRun_append`. -/

namespace Sys2Proof.Machine

/-! ## Steps in a row -/

theorem acornRun_append (l m : List AcornInput) (s : AcornReg) :
    acornRun (l ++ m) s = ((acornRun m (acornRun l s).1).1, (acornRun l s).2 ++ (acornRun m (acornRun l s).1).2) := by
  induction l generalizing s with
  | nil => rfl
  | cons i l ih => obtain ⟨m, ca, cb⟩ := i; simp [acornRun, ih]

@[simp] theorem length_acornRun (l : List AcornInput) (s : AcornReg) : (acornRun l s).2.length = l.length := by
  induction l generalizing s with
  | nil => rfl
  | cons i l ih => obtain ⟨m, ca, cb⟩ := i; simp [acornRun, ih]

/-- A loop of steps is a row of the schedule; its keystream bits are those of the states in turn. -/
theorem acornRun_range (m ca cb : Nat → Bool) (n : Nat) (s : AcornReg) :
    acornRun ((List.range n).map fun i => (m i, ca i, cb i)) s =
      (loop n (fun i s => acornNext (m i) (ca i) (cb i) s) s,
        (List.range n).map fun j => acornKs (loop j (fun i s => acornNext (m i) (ca i) (cb i) s) s)) := by
  induction n with
  | zero => rfl
  | succ n ih => rw [List.range_succ, List.map_append, acornRun_append, ih, List.map_append]; rfl

/-! ## The rows of the initialisation (41_acorn128.md rule R135) -/

theorem flatten_replicate_range {α : Type} (f : Nat → α) (c n : Nat) :
    (List.replicate c ((List.range n).map f)).flatten = (List.range (n * c)).map fun i => f (i % n) := by
  induction c with
  | zero => simp
  | succ c ih =>
    rw [List.replicate_succ', List.flatten_append, ih, Nat.mul_succ, List.range_add, List.map_append, List.map_map]
    congr 1
    rw [List.flatten_singleton]
    refine List.map_congr_left fun i hi => ?_
    have : i < n := List.mem_range.mp hi
    simp [Nat.mod_eq_of_lt this]

theorem complementFirst_map_range (f : Nat → Bool) (n : Nat) :
    complementFirst ((List.range n).map f) = (List.range n).map fun i => if i = 0 then !f 0 else f i := by
  cases n with
  | zero => rfl
  | succ n => simp [List.range_succ_eq_map, complementFirst]

/-- The bits of the key's twelve repetitions, the first complemented, as the initialisation takes them. -/
theorem acornInitBit_repeated (k n : Block) (i : Nat) :
    acornInitBit k n (256 + i) = if i = 0 then !blockBit k 0 else blockBit k (i % 128) := by
  have h1 : ¬ 256 + i < 128 := by omega
  have h2 : ¬ 256 + i < 256 := by omega
  have h3 : 256 + i = 256 ↔ i = 0 := by omega
  have h4 : (256 + i) % 128 = i % 128 := by omega
  simp only [acornInitBit, h1, h2, h3, h4, if_false]

/-- The input bits of the initialisation: the key, the nonce, the key twelve times with its first bit complemented. -/
theorem initBits_eq (k n : Block) :
    bitsOf k.toList ++ bitsOf n.toList ++ complementFirst (List.replicate 12 (bitsOf k.toList)).flatten =
      (List.range 1792).map (acornInitBit k n) := by
  have split : List.range 1792 =
      List.range 128 ++ (List.range 128).map (128 + ·) ++ (List.range (128 * 12)).map (256 + ·) := by
    rw [← List.range_add, ← List.range_add]
  rw [bitsOf_toList, bitsOf_toList, flatten_replicate_range, complementFirst_map_range, split, List.map_append, List.map_append,
    List.map_map, List.map_map]
  refine congrArg₂ _ (congrArg₂ _ (List.map_congr_left fun i hi => ?_) (List.map_congr_left fun i hi => ?_))
    (List.map_congr_left fun i _ => ?_)
  · have : i < 128 := List.mem_range.mp hi
    simp only [acornInitBit, this, if_true]
  · have h1 : ¬ 128 + i < 128 := by omega
    have h2 : 128 + i < 256 := by have := List.mem_range.mp hi; omega
    simp only [Function.comp_apply, acornInitBit, h1, h2, if_true, if_false, Nat.add_sub_cancel_left]
  · exact (acornInitBit_repeated k n i).symm

/-- The first row of the schedule. -/
theorem acornRun_init (k n : Block) :
    (acornRun ((bitsOf k.toList ++ bitsOf n.toList ++
      complementFirst (List.replicate 12 (bitsOf k.toList)).flatten).map fun m => (m, true, true)) 0).1 = acornInit k n := by
  rw [initBits_eq, List.map_map]
  exact congrArg Prod.fst (acornRun_range (acornInitBit k n) (fun _ => true) (fun _ => true) 1792 0)

/-! ## Associated data, separators, payload (41_acorn128.md rules R136 to R138, R140) -/

theorem bitsOf_cons (b : Byte) (l : List Byte) : bitsOf (b :: l) = (List.range 8).map b.getLsbD ++ bitsOf l := rfl

@[simp] theorem length_bitsOf (l : List Byte) : (bitsOf l).length = 8 * l.length := by
  rw [bitsOf_eq_map_range]; simp

theorem acornRun_aadByte (b : Byte) (s : AcornReg) :
    (acornRun (((List.range 8).map b.getLsbD).map fun m => (m, true, true)) s).1 = acornAad b s := by
  rw [List.map_map]
  exact congrArg Prod.fst (acornRun_range b.getLsbD (fun _ => true) (fun _ => true) 8 s)

/-- The associated data's row. -/
theorem aadEngine_acorn (n : Word64) (s : AcornReg) (a : List Byte) :
    aadEngine n (.acorn s) a = .acorn (acornRun ((bitsOf a).map fun m => (m, true, true)) s).1 := by
  induction a generalizing n s with
  | nil => rfl
  | cons b a ih => rw [aadEngine, engAad, ih, bitsOf_cons, List.map_append, acornRun_append, acornRun_aadByte]

/-- A separator's row. -/
theorem acornRun_padRow (cb : Bool) (s : AcornReg) : (acornRun (acornPadRow cb) s).1 = acornPad cb s :=
  congrArg Prod.fst (acornRun_range (fun i => i == 0) (fun i => decide (i < 128)) (fun _ => cb) 256 s)

theorem acornRun_encByte (p : Byte) (s : AcornReg) :
    acornRun (((List.range 8).map p.getLsbD).map fun m => (m, true, false)) s =
      ((acornEnc p s).1, (List.range 8).map fun j => acornKs (loop j (acornEncNext p) s)) := by
  rw [List.map_map, acornEnc_fst]
  exact acornRun_range p.getLsbD (fun _ => true) (fun _ => false) 8 s

theorem bitsOf_acornEnc (p : Byte) (s : AcornReg) :
    (List.range 8).map (acornEnc p s).2.getLsbD =
      List.zipWith xor ((List.range 8).map p.getLsbD) ((List.range 8).map fun j => acornKs (loop j (acornEncNext p) s)) := by
  rw [List.zipWith_map, List.zipWith_self]
  exact List.map_congr_left fun j hj => getLsbD_acornEnc_snd p s (List.mem_range.mp hj)

/-- The payload's row: the register, and the ciphertext's bits. -/
theorem payloadEngine_acorn (n : Word64) (s : AcornReg) (p : List Byte) :
    (payloadEngine engEnc n (.acorn s) p).1 = .acorn (acornRun ((bitsOf p).map fun m => (m, true, false)) s).1 ∧
      bitsOf (payloadEngine engEnc n (.acorn s) p).2 =
        List.zipWith xor (bitsOf p) (acornRun ((bitsOf p).map fun m => (m, true, false)) s).2 := by
  induction p generalizing n s with
  | nil => exact ⟨rfl, rfl⟩
  | cons b p ih =>
    obtain ⟨register, bits⟩ := ih (n + 1) (acornEnc b s).1
    rw [bitsOf_cons, List.map_append, acornRun_append, acornRun_encByte]
    refine ⟨register, ?_⟩
    rw [List.zipWith_append (by simp), ← bitsOf_acornEnc, ← bits]
    rfl

/-! ## The tag (41_acorn128.md rule R141) -/

/-- The register part of one finalisation step. -/
def acornFinalNext (s : AcornReg) : AcornReg := acornNext false true true s

/-- The finalisation's loop: a plain loop of steps that keeps the keystream bits from step 640 on. -/
theorem loop_acornFinalBit (s : AcornReg) (n : Nat) (hn : n ≤ 768) :
    (loop n acornFinalBit (s, 0)).1 = loop n (fun _ => acornFinalNext) s ∧
      ∀ j, 640 + j < n → (loop n acornFinalBit (s, 0)).2.getLsbD j = acornKs (loop (640 + j) (fun _ => acornFinalNext) s) := by
  induction n with
  | zero => exact ⟨rfl, fun j hj => absurd hj (by omega)⟩
  | succ n ih =>
    obtain ⟨register, bits⟩ := ih (by omega)
    have state : (loop (n + 1) acornFinalBit (s, 0)).1 = acornFinalNext (loop n acornFinalBit (s, 0)).1 := rfl
    refine ⟨by rw [state, register, loop_succ], fun j hj => ?_⟩
    rw [loop_succ, acornFinalBit, if_pos (show 640 ≤ n by omega), getLsbD_setBit]
    by_cases new : j = n - 640
    · rw [if_pos ⟨new, by omega⟩, show 640 + j = n by omega, ← register]
      rfl
    · rw [if_neg (by simp [new]), bits j (by omega)]

/-- The last row: the register, and the tag's bits. -/
theorem acornFinal_eq (s : AcornReg) :
    (acornFinal s).1 = (acornRun (List.replicate 768 (false, true, true)) (acornPad false s)).1 ∧
      bitsOf (acornFinal s).2.toList = (acornRun (List.replicate 768 (false, true, true)) (acornPad false s)).2.drop 640 := by
  have row : List.replicate 768 (false, true, true) = (List.range 768).map fun _ => (false, true, true) := by
    rw [List.map_const', List.length_range]
  have run := acornRun_range (fun _ => false) (fun _ => true) (fun _ => true) 768 (acornPad false s)
  obtain ⟨register, bits⟩ := loop_acornFinalBit (acornPad false s) 768 (le_refl 768)
  rw [row, run]
  refine ⟨register, ?_⟩
  rw [bitsOf_toList, ← List.map_drop, show (768 : Nat) = 640 + 128 from rfl, List.range_add,
    List.drop_left' List.length_range, List.map_map]
  refine List.map_congr_left fun j hj => ?_
  have hj : j < 128 := List.mem_range.mp hj
  rw [acornFinal, blockBit_blockOfBits _ hj, bits j (by omega)]
  rfl

/-! ## The whole operation (41_acorn128.md rule R134) -/

/-- The rows before the payload. -/
def acornOpeningRows (k n a : List Byte) : List AcornInput :=
  (bitsOf k ++ bitsOf n ++ complementFirst (List.replicate 12 (bitsOf k)).flatten).map (fun m => (m, true, true)) ++
    (bitsOf a).map (fun m => (m, true, true)) ++ acornPadRow true

theorem acornSchedule_eq (k n a p : List Byte) :
    acornSchedule k n a p = acornOpeningRows k n a ++ ((bitsOf p).map (fun m => (m, true, false)) ++
      (acornPadRow false ++ List.replicate 768 (false, true, true))) := by
  simp only [acornSchedule, acornOpeningRows, List.append_assoc]

theorem length_complementFirst (l : List Bool) : (complementFirst l).length = l.length := by cases l <;> rfl

@[simp] theorem length_acornPadRow (cb : Bool) : (acornPadRow cb).length = 256 := by simp [acornPadRow]

theorem length_acornOpeningRows {k n : List Byte} (hk : k.length = 16) (hn : n.length = 16) (a : List Byte) :
    (acornOpeningRows k n a).length = 1792 + 8 * a.length + 256 := by
  simp [acornOpeningRows, length_complementFirst, hk, hn]
  omega

/-- The register in which the payload begins. -/
theorem aeadOpened_acorn (k n : Block) (a : List Byte) :
    aeadOpened .acorn128 k n a = .acorn (acornRun (acornOpeningRows k.toList n.toList a) 0).1 := by
  rw [acornOpeningRows, acornRun_append, acornRun_append, acornRun_init, acornRun_padRow]
  rw [aeadOpened, Engine.zero, engInit, aadEngine_acorn]
  rfl

/-- The payload's rows. -/
def acornPayloadRows (p : List Byte) : List AcornInput := (bitsOf p).map fun m => (m, true, false)

/-- The last rows, whose keystream holds the tag. -/
def acornTagRows : List AcornInput := List.replicate 768 (false, true, true)

/-- The schedule's run, cut at the payload, at the last separator and at the tag. -/
theorem acornRun_schedule (k n a p : List Byte) {s3 s4 : AcornReg} (h3 : (acornRun (acornOpeningRows k n a) 0).1 = s3)
    (h4 : (acornRun (acornPayloadRows p) s3).1 = s4) :
    acornRun (acornSchedule k n a p) 0 =
      ((acornRun acornTagRows (acornPad false s4)).1,
        (acornRun (acornOpeningRows k n a) 0).2 ++ ((acornRun (acornPayloadRows p) s3).2 ++
          ((acornRun (acornPadRow false) s4).2 ++ (acornRun acornTagRows (acornPad false s4)).2))) := by
  rw [acornSchedule_eq, ← acornPayloadRows, ← acornTagRows, acornRun_append, acornRun_append, acornRun_append, h3, h4,
    acornRun_padRow]

theorem zipWith_append_right {α β γ : Type} (f : α → β → γ) {l : List α} {m : List β} (h : l.length = m.length) (r : List β) :
    List.zipWith f l (m ++ r) = List.zipWith f l m := by
  conv_lhs => rw [← List.append_nil l, List.zipWith_append h, List.zipWith_nil_left, List.append_nil]

/-- A drop that reaches into the last of four parts. -/
theorem drop_append_of_length_add {α : Type} {l1 l2 l3 l4 : List α} {n m : Nat}
    (h : n = l1.length + (l2.length + (l3.length + m))) : (l1 ++ (l2 ++ (l3 ++ l4))).drop n = l4.drop m := by
  rw [h, List.drop_length_add_append, List.drop_length_add_append, List.drop_length_add_append]

theorem length_acornSchedule {k n : List Byte} (hk : k.length = 16) (hn : n.length = 16) (a p : List Byte) :
    (acornSchedule k n a p).length = 3072 + 8 * (a.length + p.length) := by
  rw [acornSchedule_eq]
  simp only [List.length_append, length_acornOpeningRows hk hn, List.length_map, length_bitsOf, length_acornPadRow,
    List.length_replicate]
  omega

/-- The ciphertext and the tag of an operation, as bits of its schedule's keystream. -/
theorem aead_eq_schedule (k n : Block) (a p : List Byte) :
    (aeadFinal engEnc .acorn128 k n a p).1 = .acorn (acornRun (acornSchedule k.toList n.toList a p) 0).1 ∧
      bitsOf (aeadPayload engEnc .acorn128 k n a p).2 = List.zipWith xor (bitsOf p)
        ((acornRun (acornSchedule k.toList n.toList a p) 0).2.drop (1792 + 8 * a.length + 256)) ∧
      bitsOf (aeadFinal engEnc .acorn128 k n a p).2.toList =
        (acornRun (acornSchedule k.toList n.toList a p) 0).2.drop (2944 + 8 * (a.length + p.length)) := by
  obtain ⟨register, cipher⟩ := payloadEngine_acorn 0 (acornRun (acornOpeningRows k.toList n.toList a) 0).1 p
  rw [← aeadOpened_acorn, ← aeadPayload, ← acornPayloadRows] at register cipher
  obtain ⟨last, tag⟩ := acornFinal_eq
    (acornRun (acornPayloadRows p) (acornRun (acornOpeningRows k.toList n.toList a) 0).1).1
  rw [← acornTagRows] at last tag
  have opening : (acornRun (acornOpeningRows k.toList n.toList a) 0).2.length = 1792 + 8 * a.length + 256 := by
    rw [length_acornRun, length_acornOpeningRows Vector.length_toList Vector.length_toList]
  have payload : (acornRun (acornPayloadRows p) (acornRun (acornOpeningRows k.toList n.toList a) 0).1).2.length = 8 * p.length := by
    rw [length_acornRun, acornPayloadRows, List.length_map, length_bitsOf]
  rw [acornRun_schedule _ _ _ _ rfl rfl, aeadFinal, register, engFinal, last, tag, cipher]
  dsimp only
  refine ⟨rfl, ?_, ?_⟩
  · rw [List.drop_left' opening, zipWith_append_right _ (by rw [length_bitsOf, payload])]
  · refine (drop_append_of_length_add ?_).symm
    rw [opening, payload, length_acornRun, length_acornPadRow]
    omega

/-- Settles O45: the rows of the schedule in order, each the engine's procedure. -/
theorem acornOperationIsSchedule : Obligations.AcornOperationIsSchedule := by
  intro s k n a p halg hk hn
  have run := execAll_aeadEncrypt hk hn a p s
  obtain ⟨engine, cipher, tag⟩ := aead_eq_schedule (blockOfList k) (blockOfList n) a p
  rw [halg] at run
  rw [toList_blockOfList k hk, toList_blockOfList n hn] at engine cipher tag
  exact ⟨length_acornSchedule hk hn a p, _, _, _, run, rfl, engine, cipher, tag⟩

end Sys2Proof.Machine
end

section
/-! Proofs for 42_ascon128.md section 1: the round constants, the substitution as a table, and the permutations as bijections. -/

namespace Sys2Proof.Machine

/-! ## The substitution layer (42_ascon128.md rule R163) -/

/-- Settles O46: the twelve constants are listed and evaluated. -/
theorem asconRoundConstantTable : Obligations.AsconRoundConstantTable := by
  unfold Obligations.AsconRoundConstantTable
  decide

/-- The number of one bit column, `X[0]` first. -/
def columnOfBits (b0 b1 b2 b3 b4 : Bool) : Nat := 16 * b0.toNat + 8 * b1.toNat + 4 * b2.toNat + 2 * b3.toNat + b4.toNat

/-- The substitution's lines on one bit of each word. -/
def substituteBits (x0 x1 x2 x3 x4 : Bool) : Nat :=
  let a0 := x0 ^^ x4
  let a2 := x2 ^^ x1
  let a4 := x4 ^^ x3
  let b0 := a0 ^^ (!x1 && a2)
  let b1 := x1 ^^ (!a2 && x3)
  let b2 := a2 ^^ (!x3 && a4)
  let b3 := x3 ^^ (!a4 && a0)
  let b4 := a4 ^^ (!a0 && x1)
  columnOfBits (b0 ^^ b4) (b1 ^^ b0) (!b2) (b3 ^^ b2) b4

theorem sboxTable_column : ∀ x0 x1 x2 x3 x4 : Bool,
    sboxTable[columnOfBits x0 x1 x2 x3 x4]? = some (substituteBits x0 x1 x2 x3 x4) := by decide

/-- The substitution acts on each column alone. -/
theorem asconColumn_substitute (x : AsconReg) {i : Nat} (hi : i < 64) :
    asconColumn (asconSubstitute x) i =
      substituteBits (x.x0.getLsbD i) (x.x1.getLsbD i) (x.x2.getLsbD i) (x.x3.getLsbD i) (x.x4.getLsbD i) := by
  simp only [asconColumn, asconSubstitute, substituteBits, columnOfBits, BitVec.getLsbD_xor, BitVec.getLsbD_and,
    BitVec.getLsbD_not, hi, decide_true, Bool.true_and]

/-- Settles O47: one column at a time, by the table's 32 entries. -/
theorem asconSubstitutionIsTable : Obligations.AsconSubstitutionIsTable := by
  intro x i hi
  rw [asconColumn_substitute x hi]
  exact sboxTable_column _ _ _ _ _

/-! ## The rounds are injective (42_ascon128.md rules R162 to R164) -/

theorem columnOfBits_injective : ∀ a0 a1 a2 a3 a4 b0 b1 b2 b3 b4 : Bool,
    columnOfBits a0 a1 a2 a3 a4 = columnOfBits b0 b1 b2 b3 b4 → a0 = b0 ∧ a1 = b1 ∧ a2 = b2 ∧ a3 = b3 ∧ a4 = b4 := by
  decide

theorem sboxTable_nodup : sboxTable.Nodup := by decide

theorem columnOfBits_lt (b0 b1 b2 b3 b4 : Bool) : columnOfBits b0 b1 b2 b3 b4 < sboxTable.length := by
  revert b0 b1 b2 b3 b4; decide

/-- A state is determined by its columns. -/
theorem eq_of_asconColumn_eq {x y : AsconReg} (h : ∀ i < 64, asconColumn x i = asconColumn y i) : x = y := by
  have bits (i : Nat) (hi : i < 64) := columnOfBits_injective _ _ _ _ _ _ _ _ _ _ (h i hi)
  obtain ⟨x0, x1, x2, x3, x4⟩ := x
  obtain ⟨y0, y1, y2, y3, y4⟩ := y
  simp only [AsconReg.mk.injEq]
  exact ⟨BitVec.eq_of_getLsbD_eq fun i hi => (bits i hi).1, BitVec.eq_of_getLsbD_eq fun i hi => (bits i hi).2.1,
    BitVec.eq_of_getLsbD_eq fun i hi => (bits i hi).2.2.1, BitVec.eq_of_getLsbD_eq fun i hi => (bits i hi).2.2.2.1,
    BitVec.eq_of_getLsbD_eq fun i hi => (bits i hi).2.2.2.2⟩

/-- The table has no entry twice, so the layer is injective column by column. -/
theorem asconSubstitute_injective : Function.Injective asconSubstitute := by
  intro x y h
  refine eq_of_asconColumn_eq fun i hi => ?_
  have hx := asconSubstitutionIsTable x i hi
  rw [h, ← asconSubstitutionIsTable y i hi] at hx
  exact (List.getElem?_inj (columnOfBits_lt _ _ _ _ _) sboxTable_nodup).mp hx

theorem asconAddConstant_injective (c : Byte) : Function.Injective (asconAddConstant c) := by
  intro x y h
  obtain ⟨x0, x1, x2, x3, x4⟩ := x
  obtain ⟨y0, y1, y2, y3, y4⟩ := y
  simpa [asconAddConstant] using h

/-- `w` exclusive-ored with two of its rotations. -/
def xorRotations (a b : Nat) (w : Word64) : Word64 := w ^^^ w.rotateRight a ^^^ w.rotateRight b

theorem ror64_eq_rotateRight {n : Nat} (hn : n < 64) (w : Word64) : ror64 w n = w.rotateRight n := by
  rw [BitVec.rotateRight, Nat.mod_eq_of_lt hn]
  rfl

theorem asconMix_eq_xorRotations {a b : Nat} (ha : a < 64) (hb : b < 64) (w : Word64) : asconMix a b w = xorRotations a b w := by
  rw [asconMix, ror64_eq_rotateRight ha, ror64_eq_rotateRight hb, xorRotations]

/-- One bit of a rotation, for any distance. -/
theorem getLsbD_rotateRight_mod (w : Word64) (n : Nat) {i : Nat} (hi : i < 64) :
    (w.rotateRight n).getLsbD i = w.getLsbD ((i + n) % 64) := by
  have wrap := Nat.mod_lt n (show 64 > 0 by omega)
  rw [BitVec.getLsbD_rotateRight]
  by_cases h : i < 64 - n % 64
  · rw [show (i + n) % 64 = n % 64 + i by omega]
    simp [h]
  · rw [show (i + n) % 64 = i - (64 - n % 64) by omega]
    simp [h, hi]

/-- One bit of a word exclusive-ored with two of its rotations. -/
theorem getLsbD_xorRotations (a b : Nat) (w : Word64) {i : Nat} (hi : i < 64) :
    (xorRotations a b w).getLsbD i = (w.getLsbD i ^^ w.getLsbD ((i + a) % 64) ^^ w.getLsbD ((i + b) % 64)) := by
  rw [xorRotations, BitVec.getLsbD_xor, BitVec.getLsbD_xor, getLsbD_rotateRight_mod w a hi, getLsbD_rotateRight_mod w b hi]

/-- Applied twice, the two mixed terms cancel: what remains is the operation with both distances doubled. -/
theorem xorRotations_twice (a b : Nat) (w : Word64) : xorRotations a b (xorRotations a b w) = xorRotations (2 * a) (2 * b) w := by
  refine BitVec.eq_of_getLsbD_eq fun i hi => ?_
  rw [getLsbD_xorRotations a b _ hi, getLsbD_xorRotations a b w hi, getLsbD_xorRotations a b w (Nat.mod_lt _ (by omega)),
    getLsbD_xorRotations a b w (Nat.mod_lt _ (by omega)), getLsbD_xorRotations _ _ w hi,
    show ((i + a) % 64 + a) % 64 = (i + 2 * a) % 64 by omega, show ((i + b) % 64 + b) % 64 = (i + 2 * b) % 64 by omega,
    show ((i + b) % 64 + a) % 64 = ((i + a) % 64 + b) % 64 by omega]
  generalize w.getLsbD i = u0, w.getLsbD ((i + a) % 64) = u1, w.getLsbD ((i + b) % 64) = u2,
    w.getLsbD (((i + a) % 64 + b) % 64) = u3, w.getLsbD ((i + 2 * a) % 64) = u4, w.getLsbD ((i + 2 * b) % 64) = u5
  revert u0 u1 u2 u3 u4 u5
  decide

/-- Doubled six times, both distances are a whole turn and the operation is the identity; so it is injective. -/
theorem xorRotations_injective (a b : Nat) : Function.Injective (xorRotations a b) := by
  have halve (c d : Nat) (h : Function.Injective (xorRotations (2 * c) (2 * d))) : Function.Injective (xorRotations c d) :=
    Function.Injective.of_comp (f := xorRotations c d) (by
      rwa [show xorRotations c d ∘ xorRotations c d = xorRotations (2 * c) (2 * d) from funext (xorRotations_twice c d)])
  have turn : Function.Injective (xorRotations (2 ^ 6 * a) (2 ^ 6 * b)) := by
    have identity : xorRotations (2 ^ 6 * a) (2 ^ 6 * b) = id := by
      funext w
      refine BitVec.eq_of_getLsbD_eq fun i hi => ?_
      rw [getLsbD_xorRotations _ _ w hi, show (i + 2 ^ 6 * a) % 64 = i by omega, show (i + 2 ^ 6 * b) % 64 = i by omega,
        Bool.xor_self, Bool.false_xor, id]
    rw [identity]
    exact Function.injective_id
  have descend (m : Nat) (h : Function.Injective (xorRotations (2 ^ m * a) (2 ^ m * b))) :
      Function.Injective (xorRotations a b) := by
    induction m with
    | zero => simpa using h
    | succ m ih => exact ih (halve _ _ (by rwa [← Nat.mul_assoc, ← Nat.mul_assoc, ← Nat.pow_succ']))
  exact descend 6 turn

theorem asconMix_injective {a b : Nat} (ha : a < 64) (hb : b < 64) : Function.Injective (asconMix a b) := by
  rw [show asconMix a b = xorRotations a b from funext (asconMix_eq_xorRotations ha hb)]
  exact xorRotations_injective a b

theorem asconDiffuse_injective : Function.Injective asconDiffuse := by
  intro x y h
  obtain ⟨x0, x1, x2, x3, x4⟩ := x
  obtain ⟨y0, y1, y2, y3, y4⟩ := y
  simp only [asconDiffuse, AsconReg.mk.injEq] at h ⊢
  obtain ⟨h0, h1, h2, h3, h4⟩ := h
  exact ⟨asconMix_injective (by omega) (by omega) h0, asconMix_injective (by omega) (by omega) h1,
    asconMix_injective (by omega) (by omega) h2, asconMix_injective (by omega) (by omega) h3,
    asconMix_injective (by omega) (by omega) h4⟩

theorem asconRound_injective (c : Byte) : Function.Injective (asconRound c) :=
  asconDiffuse_injective.comp (asconSubstitute_injective.comp (asconAddConstant_injective c))

/-! ## The permutations (42_ascon128.md rule R165) -/

theorem foldl_asconRound_injective (l : List Byte) : Function.Injective fun x => l.foldl (fun x c => asconRound c x) x := by
  induction l with
  | nil => exact Function.injective_id
  | cons c l ih => exact ih.comp (asconRound_injective c)

/-- The 320-bit state has finitely many values. -/
theorem finite_asconReg : Finite AsconReg := by
  have word : Finite Word64 := Finite.of_injective BitVec.toFin fun a b h => BitVec.toFin_inj.mp h
  refine Finite.of_injective (fun x : AsconReg => (x.x0, x.x1, x.x2, x.x3, x.x4)) fun x y h => ?_
  cases x; cases y
  simpa using h

theorem asconP_bijective (n : Nat) : Function.Bijective (asconP n) := by
  have := finite_asconReg
  exact Finite.injective_iff_bijective.mp (foldl_asconRound_injective _)

/-- Settles O48: the constants in order, injectivity on a finite state, and the two examples evaluated. -/
theorem asconPermutationBijective : Obligations.AsconPermutationBijective :=
  ⟨fun _ => rfl, fun _ => rfl, asconP_bijective 12, asconP_bijective 6, by decide +kernel, by decide +kernel⟩

end Sys2Proof.Machine
end

section
/-! Proofs for 42_ascon128.md sections 2 and 3 and 20_memory.md rule R54: the byte order of words, and the byte-serial rules as the
description by right-padded blocks. Bytes exclusive-ored one after the other into the rate word are one word (`packAt`). -/

namespace Sys2Proof.Machine

/-! ## Words and bytes, most significant byte first (20_memory.md rule R54) -/

/-- Appending a byte moves the others up one place. -/
theorem wordByte_shiftLeft_or (w : Word64) (b : Byte) {k : Nat} (hk : k < 8) :
    wordByte ((w <<< 8) ||| b.setWidth 64) k = if k = 7 then b else wordByte w (k + 1) := by
  refine BitVec.eq_of_getLsbD_eq fun i hi => ?_
  rw [getLsbD_wordByte, BitVec.getLsbD_or, BitVec.getLsbD_shiftLeft, BitVec.getLsbD_setWidth]
  split
  next h => subst h; simp [byteShift, hi, show i < 64 by omega]
  next h =>
    have high : 8 ≤ byteShift k + i := by unfold byteShift; omega
    have place : byteShift k + i - 8 = byteShift (k + 1) + i := by unfold byteShift; omega
    have width : byteShift k + i < 64 := by unfold byteShift; omega
    rw [getLsbD_wordByte, place, BitVec.getLsbD_of_ge b _ high]
    simp [hi, width, Nat.not_lt.mpr high]

/-- The bytes of `BE64` of at most eight bytes: zeros, then the bytes. -/
theorem wordByte_be64List_of_le (l : List Byte) (hl : l.length ≤ 8) {k : Nat} (hk : k < 8) :
    wordByte (be64List l) k = if 8 ≤ k + l.length then l.getD (k + l.length - 8) 0 else 0 := by
  induction l using List.reverseRecOn generalizing k with
  | nil =>
    rw [if_neg (by simpa using hk)]
    exact BitVec.eq_of_getLsbD_eq fun i hi => by simp [be64List, getLsbD_wordByte]
  | append_singleton l b ih =>
    have length : (l ++ [b]).length = l.length + 1 := by simp
    rw [length] at hl
    rw [be64List, List.foldl_append, ← be64List, List.foldl_cons, List.foldl_nil, wordByte_shiftLeft_or _ _ hk, length]
    by_cases last : k = 7
    · subst last
      rw [if_pos rfl, if_pos (by omega), show 7 + (l.length + 1) - 8 = l.length by omega]
      simp
    · rw [if_neg last, ih (by omega) (by omega), show k + 1 + l.length = k + (l.length + 1) by omega]
      split
      · have : k + (l.length + 1) - 8 < l.length := by omega
        simp [List.getElem?_append_left this]
      · rfl

theorem wordByte_be64List {l : List Byte} (hl : l.length = 8) {k : Nat} (hk : k < 8) : wordByte (be64List l) k = l.getD k 0 := by
  rw [wordByte_be64List_of_le l hl.le hk, if_pos (by omega), hl, Nat.add_sub_cancel]

theorem getD_bytes64 (w : Word64) {k : Nat} (hk : k < 8) : (bytes64 w).getD k 0 = wordByte w k := by
  simp [bytes64, hk]

theorem be64List_bytes64 (w : Word64) : be64List (bytes64 w) = w :=
  eq_of_wordByte_eq fun k hk => by rw [wordByte_be64List (length_bytes64 w) hk, getD_bytes64 w hk]

/-- The bytes of a register's word. -/
theorem wordByte_be64 (b : Block) (a : Nat) {k : Nat} (hk : k < 8) : wordByte (be64 b a) k = blockByte b (a + k) := by
  refine BitVec.eq_of_getLsbD_eq fun i hi => ?_
  rw [getLsbD_wordByte]
  simp only [be64, BitVec.getLsbD_append, byteShift, Nat.add_comm _ i]
  have high (c : Nat) (hc : 8 ≤ c) : ¬ i + c < 8 := by omega
  interval_cases k <;> simp [hi, high]

theorem bytes64_be64 (b : Block) (a : Nat) : bytes64 (be64 b a) = (List.range 8).map fun k => blockByte b (a + k) :=
  List.map_congr_left fun _ hk => wordByte_be64 b a (List.mem_range.mp hk)

theorem toList_eq_blockBytes (b : Block) : b.toList = (List.range 16).map (blockByte b) := by
  refine List.ext_getElem (by simp) fun i h1 h2 => ?_
  have : i < 16 := by simpa using h1
  simp [this]

/-- The bytes of the two words are the register's bytes. -/
theorem bytes64_be64_append (b : Block) : bytes64 (be64 b 0) ++ bytes64 (be64 b 8) = b.toList := by
  rw [bytes64_be64, bytes64_be64, toList_eq_blockBytes, show (16 : Nat) = 8 + 8 from rfl, List.range_add, List.map_append,
    List.map_map]
  simp only [Nat.zero_add]
  rfl

/-- Settles O50: by the bytes of the two words. -/
theorem asconByteOrderBigEndian : Obligations.AsconByteOrderBigEndian := by
  refine fun b => ⟨fun j i hj hi => ⟨?_, ?_⟩, bytes64_be64_append b, be64List_bytes64⟩
  · have byte := congrArg (BitVec.getLsbD · i) (wordByte_be64 b 0 hj)
    simpa only [getLsbD_wordByte, hi, decide_true, Bool.true_and, byteShift, Nat.zero_add] using byte
  · have byte := congrArg (BitVec.getLsbD · i) (wordByte_be64 b 8 hj)
    simpa only [getLsbD_wordByte, hi, decide_true, Bool.true_and, byteShift] using byte

/-! ## The initialisation (42_ascon128.md rule R166) -/

theorem be64List_take (b : Block) : be64List (b.toList.take 8) = be64 b 0 := by
  rw [← bytes64_be64_append, List.take_left' (length_bytes64 _), be64List_bytes64]

theorem be64List_drop (b : Block) : be64List (b.toList.drop 8) = be64 b 8 := by
  rw [← bytes64_be64_append, List.drop_left' (length_bytes64 _), be64List_bytes64]

theorem asconInit_eq (k n : Block) : asconInit k n = asconInitBlocks k.toList n.toList := by
  rw [asconInitBlocks, be64List_take, be64List_drop, be64List_take, be64List_drop]
  rfl

/-- Settles O56: the words of key and nonce, and the example evaluated. -/
theorem asconInitialisation : Obligations.AsconInitialisation := by
  refine ⟨fun k n x => congrArg Engine.ascon (asconInit_eq k n), fun x => congrArg Engine.ascon ?_⟩
  decide +kernel

/-! ## Bytes gathered into one word -/

/-- The bytes `l` exclusive-ored into a zero word, the first of them in place `j`. -/
def packAt (j : Nat) : List Byte → Word64
  | [] => 0#64
  | b :: l => byteAt b j ^^^ packAt (j + 1) l

theorem packAt_append (j : Nat) (l m : List Byte) : packAt j (l ++ m) = packAt j l ^^^ packAt (j + l.length) m := by
  induction l generalizing j with
  | nil => simp [packAt]
  | cons b l ih => simp [packAt, ih, BitVec.xor_assoc, Nat.add_assoc, Nat.add_comm 1]

/-- The bytes of a gathered word. -/
theorem wordByte_packAt (j : Nat) (l : List Byte) (h : j + l.length ≤ 8) {k : Nat} (hk : k < 8) :
    wordByte (packAt j l) k = if j ≤ k then l.getD (k - j) 0 else 0 := by
  induction l generalizing j with
  | nil =>
    have zero : wordByte 0#64 k = 0#8 := BitVec.eq_of_getLsbD_eq fun i hi => by simp [wordByte]
    simp [packAt, zero]
  | cons b l ih =>
    rw [List.length_cons] at h
    rw [packAt, wordByte_xor, wordByte_byteAt b (by omega) hk, ih (j + 1) (by omega)]
    rcases Nat.lt_trichotomy k j with lt | rfl | gt
    · rw [if_neg (by omega), if_neg (by omega), if_neg (by omega)]
      rfl
    · simp
    · rw [if_neg (by omega), if_pos (by omega), if_pos (by omega), show k - j = k - (j + 1) + 1 by omega]
      simp

theorem be64List_eq_packAt {l : List Byte} (hl : l.length = 8) : be64List l = packAt 0 l :=
  eq_of_wordByte_eq fun k hk => by
    rw [wordByte_be64List hl hk, wordByte_packAt 0 l (by omega) hk, if_pos (Nat.zero_le k), Nat.sub_zero]

theorem packAt_zeros (j c : Nat) : packAt j (List.replicate c 0) = 0#64 := by
  have zero (i : Nat) : byteAt 0 i = 0#64 := by simp [byteAt]
  induction c generalizing j with
  | zero => rfl
  | succ c ih => rw [List.replicate_succ, packAt, ih, zero, BitVec.xor_zero]

/-! ## The right-padded blocks (42_ascon128.md rule R172) -/

theorem paddedBlocks_append {b : List Byte} (hb : b.length = 8) (l : List Byte) :
    paddedBlocks (b ++ l) = be64List b :: paddedBlocks l := by
  match b, hb with
  | [b0, b1, b2, b3, b4, b5, b6, b7], _ => rfl

/-- The last block: the remaining bytes, then the padding byte. -/
theorem paddedBlocks_of_length_lt {l : List Byte} (hl : l.length < 8) :
    paddedBlocks l = [packAt 0 l ^^^ byteAt 0x80 l.length] := by
  have last : paddedBlocks l = [be64List (l ++ 0x80 :: List.replicate (7 - l.length) 0)] := by
    match l, hl with
    | [], _ | [_], _ | [_, _], _ | [_, _, _], _ | [_, _, _, _], _ | [_, _, _, _, _], _ | [_, _, _, _, _, _], _
    | [_, _, _, _, _, _, _], _ => rfl
  rw [last, be64List_eq_packAt (by simp; omega), packAt_append, packAt, packAt_zeros, Nat.zero_add, BitVec.xor_zero]

theorem paddedBlocks_ne_nil (l : List Byte) : paddedBlocks l ≠ [] := by
  unfold paddedBlocks; split <;> simp

/-- Induction along the blocks of a string: full blocks of eight bytes, then fewer than eight. -/
theorem blocks_induction {P : List Byte → Prop} (short : ∀ l, l.length < 8 → P l)
    (full : ∀ b l, b.length = 8 → P l → P (b ++ l)) (l : List Byte) : P l := by
  induction hn : l.length using Nat.strong_induction_on generalizing l with
  | _ n ih =>
    by_cases hl : l.length < 8
    · exact short l hl
    · have rest : P (l.drop 8) := ih (l.drop 8).length (by rw [List.length_drop]; omega) _ rfl
      rw [← List.take_append_drop 8 l]
      exact full _ _ (by rw [List.length_take]; omega) rest


end Sys2Proof.Machine
end

section
/-! Proofs for 42_ascon128.md sections 2 and 3: from a block boundary, the byte-serial associated data and payload are the description
by right-padded blocks, and a whole operation is that description. -/

namespace Sys2Proof.Machine

/-! ## Exclusive-oring into the rate word -/

theorem asconXorRate_xorRate (v w : Word64) (x : AsconReg) : asconXorRate w (asconXorRate v x) = asconXorRate (v ^^^ w) x := by
  simp [asconXorRate, BitVec.xor_assoc]

theorem asconXorRate_zero (x : AsconReg) : asconXorRate 0#64 x = x := by simp [asconXorRate]

/-- One associated-data byte. -/
theorem asconAad_eq (n : Word64) (b : Byte) (x : AsconReg) :
    asconAad n b x = asconBlockEnd (blockPos n) (asconXorRate (byteAt b (blockPos n)) x) := rfl

/-- A payload byte does to the register what an associated-data byte does (42_ascon128.md rules R167, R168). -/
theorem asconEnc_fst (n : Word64) (b : Byte) (x : AsconReg) : (asconEnc n b x).1 = asconAad n b x := rfl

theorem asconEncBytes_fst (n : Word64) (x : AsconReg) (l : List Byte) : (asconEncBytes n x l).1 = asconAadBytes n x l := by
  induction l generalizing n x with
  | nil => rfl
  | cons b l ih => rw [asconEncBytes, asconAadBytes, ih, asconEnc_fst]

/-! ## Counters -/

theorem blockPos_succ_of_lt {n : Word64} (h : blockPos n < 7) : blockPos (n + 1) = blockPos n + 1 := by
  rw [blockPos_succ]; omega

theorem blockPos_add_ofNat (n : Word64) (m : Nat) : blockPos (n + BitVec.ofNat 64 m) = (blockPos n + m) % 8 := by
  unfold blockPos
  rw [BitVec.toNat_add, BitVec.toNat_ofNat]
  omega

theorem zero_add_word (w : Word64) : (0 : Word64) + w = w := BitVec.zero_add w

theorem add_ofNat_add (n : Word64) (l m : Nat) :
    n + BitVec.ofNat 64 (l + m) = n + BitVec.ofNat 64 l + BitVec.ofNat 64 m := by
  rw [BitVec.ofNat_add, BitVec.add_assoc]

theorem add_ofNat_succ (n : Word64) (m : Nat) : n + BitVec.ofNat 64 (m + 1) = n + 1 + BitVec.ofNat 64 m := by
  rw [Nat.add_comm, add_ofNat_add]
  rfl

theorem asconAadBytes_append (n : Word64) (x : AsconReg) (l m : List Byte) :
    asconAadBytes n x (l ++ m) = asconAadBytes (n + BitVec.ofNat 64 l.length) (asconAadBytes n x l) m := by
  induction l generalizing n x with
  | nil => simp [asconAadBytes]
  | cons b l ih => rw [List.cons_append, asconAadBytes, ih, asconAadBytes, List.length_cons, add_ofNat_succ]

theorem asconEncBytes_snd_append (n : Word64) (x : AsconReg) (l m : List Byte) :
    (asconEncBytes n x (l ++ m)).2 =
      (asconEncBytes n x l).2 ++ (asconEncBytes (n + BitVec.ofNat 64 l.length) (asconAadBytes n x l) m).2 := by
  induction l generalizing n x with
  | nil => simp [asconAadBytes, asconEncBytes]
  | cons b l ih =>
    rw [List.cons_append, asconEncBytes, ih, asconEncBytes, asconAadBytes, List.length_cons, add_ofNat_succ, asconEnc_fst]
    rfl

/-! ## Bytes inside one block -/

/-- Bytes that stay inside a block are exclusive-ored in as one word; if they fill it, `P(6)` follows. -/
theorem asconAadBytes_within (n : Word64) (x : AsconReg) (l : List Byte) (h : blockPos n + l.length ≤ 8) :
    asconAadBytes n x l =
      if blockPos n + l.length = 8 then asconP 6 (asconXorRate (packAt (blockPos n) l) x)
      else asconXorRate (packAt (blockPos n) l) x := by
  induction l generalizing n x with
  | nil =>
    have := blockPos_lt n
    rw [if_neg (by simpa using this.ne), packAt, asconXorRate_zero, asconAadBytes]
  | cons b l ih =>
    rw [List.length_cons] at h ⊢
    rw [asconAadBytes, asconAad_eq, packAt, ← asconXorRate_xorRate]
    by_cases last : blockPos n = 7
    · obtain rfl : l = [] := List.eq_nil_of_length_eq_zero (by omega)
      simp [asconAadBytes, asconBlockEnd, last, packAt, asconXorRate_zero]
    · have next := blockPos_succ_of_lt (n := n) (by have := blockPos_lt n; omega)
      rw [asconBlockEnd, if_neg last, ih (n + 1) _ (by omega), next, show blockPos n + 1 + l.length = blockPos n + (l.length + 1) by omega]

/-- A full block from a block boundary. -/
theorem asconAadBytes_block {n : Word64} (hn : blockPos n = 0) (x : AsconReg) {b : List Byte} (hb : b.length = 8) :
    asconAadBytes n x b = asconP 6 (asconXorRate (be64List b) x) := by
  rw [asconAadBytes_within n x b (by omega), if_pos (by omega), hn, be64List_eq_packAt hb]

/-- The last bytes and the padding byte from a block boundary. -/
theorem asconXorRate_pad {n : Word64} (hn : blockPos n = 0) (x : AsconReg) {l : List Byte} (hl : l.length < 8) :
    asconXorRate (byteAt 0x80 (blockPos (n + BitVec.ofNat 64 l.length))) (asconAadBytes n x l) =
      asconXorRate (packAt 0 l ^^^ byteAt 0x80 l.length) x := by
  rw [asconAadBytes_within n x l (by omega), if_neg (by omega), asconXorRate_xorRate, hn, blockPos_add_ofNat, hn, Nat.zero_add,
    Nat.mod_eq_of_lt hl]

/-- The ciphertext of bytes that stay inside a block. -/
theorem asconEncBytes_snd_within (n : Word64) (x : AsconReg) (l : List Byte) (h : blockPos n + l.length ≤ 8) :
    (asconEncBytes n x l).2 = (List.range' (blockPos n) l.length).map (wordByte (x.x0 ^^^ packAt (blockPos n) l)) := by
  induction l generalizing n x with
  | nil => rfl
  | cons b l ih =>
    rw [List.length_cons] at h ⊢
    have head : (asconEnc n b x).2 = wordByte (x.x0 ^^^ packAt (blockPos n) (b :: l)) (blockPos n) := by
      rw [packAt, ← BitVec.xor_assoc, wordByte_xor, wordByte_packAt _ l (by omega) (blockPos_lt n), if_neg (by omega)]
      exact BitVec.xor_zero.symm
    have tail : (asconEncBytes (n + 1) (asconEnc n b x).1 l).2 =
        (List.range' (blockPos n + 1) l.length).map (wordByte (x.x0 ^^^ packAt (blockPos n) (b :: l))) := by
      rw [asconEnc_fst, asconAad_eq]
      by_cases last : blockPos n = 7
      · obtain rfl : l = [] := List.eq_nil_of_length_eq_zero (by omega)
        rfl
      · have next := blockPos_succ_of_lt (n := n) (by have := blockPos_lt n; omega)
        rw [asconBlockEnd, if_neg last, ih (n + 1) _ (by omega), next, packAt, ← BitVec.xor_assoc]
        rfl
    exact congrArg₂ List.cons head tail

/-! ## Associated data by blocks (42_ascon128.md rules R167, R171, R172) -/

theorem blockPos_add_block {n : Word64} (hn : blockPos n = 0) {b : List Byte} (hb : b.length = 8) :
    blockPos (n + BitVec.ofNat 64 b.length) = 0 := by
  rw [blockPos_add_ofNat, hn, hb]

/-- Absorbing a string and its padding byte. -/
theorem asconAadBlocks_padded {n : Word64} (hn : blockPos n = 0) (x : AsconReg) (l : List Byte) :
    asconP 6 (asconXorRate (byteAt 0x80 (blockPos (n + BitVec.ofNat 64 l.length))) (asconAadBytes n x l)) =
      asconAadBlocks (paddedBlocks l) x := by
  induction l using blocks_induction generalizing n x with
  | short l hl => rw [asconXorRate_pad hn x hl, paddedBlocks_of_length_lt hl]; rfl
  | full b l hb ih =>
    rw [paddedBlocks_append hb, asconAadBytes_append, asconAadBytes_block hn x hb, List.length_append, add_ofNat_add,
      ih (blockPos_add_block hn hb)]
    rfl

/-- The close after non-empty associated data. -/
theorem asconCloseAad_of_ne {m : Word64} (hm : m ≠ 0) (x : AsconReg) :
    asconCloseAad m x =
      { asconP 6 (asconXorRate (byteAt 0x80 (blockPos m)) x) with
        x4 := (asconP 6 (asconXorRate (byteAt 0x80 (blockPos m)) x)).x4 ^^^ 1 } := by
  rw [asconCloseAad, if_neg hm]
  rfl

theorem asconCloseAad_zero (x : AsconReg) : asconCloseAad 0 x = { x with x4 := x.x4 ^^^ 1 } := rfl

theorem asconCloseAad_padded {n : Word64} (hn : blockPos n = 0) (x : AsconReg) {l : List Byte}
    (hl : n + BitVec.ofNat 64 l.length ≠ 0) :
    asconCloseAad (n + BitVec.ofNat 64 l.length) (asconAadBytes n x l) =
      { asconAadBlocks (paddedBlocks l) x with x4 := (asconAadBlocks (paddedBlocks l) x).x4 ^^^ 1 } := by
  rw [asconCloseAad_of_ne hl, asconAadBlocks_padded hn]

/-! ## Payload by blocks (42_ascon128.md rules R168, R170, R172) -/

theorem asconPayloadBlocks_cons (w : Word64) {bs : List Word64} (h : bs ≠ []) (x : AsconReg) :
    asconPayloadBlocks (w :: bs) x =
      ((asconPayloadBlocks bs (asconP 6 (asconXorRate w x))).1,
        bytes64 (asconXorRate w x).x0 ++ (asconPayloadBlocks bs (asconP 6 (asconXorRate w x))).2) := by
  cases bs with
  | nil => exact absurd rfl h
  | cons v bs => rfl

/-- The register after a payload and its padding byte. -/
theorem asconPayloadBlocks_fst {n : Word64} (hn : blockPos n = 0) (x : AsconReg) (l : List Byte) :
    asconXorRate (byteAt 0x80 (blockPos (n + BitVec.ofNat 64 l.length))) (asconEncBytes n x l).1 =
      (asconPayloadBlocks (paddedBlocks l) x).1 := by
  rw [asconEncBytes_fst]
  induction l using blocks_induction generalizing n x with
  | short l hl => rw [asconXorRate_pad hn x hl, paddedBlocks_of_length_lt hl]; rfl
  | full b l hb ih =>
    rw [paddedBlocks_append hb, asconPayloadBlocks_cons _ (paddedBlocks_ne_nil l), asconAadBytes_append,
      asconAadBytes_block hn x hb, List.length_append, add_ofNat_add, ih (blockPos_add_block hn hb)]

/-- The ciphertext of fewer than eight bytes does not see the padding byte. -/
theorem take_bytes64_pad (w : Word64) {l : List Byte} (hl : l.length < 8) :
    (bytes64 (w ^^^ (packAt 0 l ^^^ byteAt 0x80 l.length))).take l.length =
      (List.range' 0 l.length).map (wordByte (w ^^^ packAt 0 l)) := by
  rw [bytes64, ← List.map_take, List.take_range, Nat.min_eq_left hl.le, List.range_eq_range']
  refine List.map_congr_left fun k hk => ?_
  have : k < l.length := by simpa using (List.mem_range'_1.mp hk).2
  rw [← BitVec.xor_assoc, wordByte_xor _ (byteAt _ _), wordByte_byteAt _ hl (by omega), if_neg (by omega), BitVec.xor_zero]

/-- The ciphertext is the rate words' bytes, as many as the plaintext has. -/
theorem asconPayloadBlocks_snd {n : Word64} (hn : blockPos n = 0) (x : AsconReg) (l : List Byte) :
    (asconEncBytes n x l).2 = (asconPayloadBlocks (paddedBlocks l) x).2.take l.length := by
  induction l using blocks_induction generalizing n x with
  | short l hl =>
    rw [asconEncBytes_snd_within n x l (by omega), hn, paddedBlocks_of_length_lt hl]
    exact (take_bytes64_pad x.x0 hl).symm
  | full b l hb ih =>
    have block : (asconEncBytes n x b).2 = bytes64 (asconXorRate (be64List b) x).x0 := by
      rw [asconEncBytes_snd_within n x b (by omega), hn, be64List_eq_packAt hb, hb, ← List.range_eq_range']
      rfl
    rw [asconEncBytes_snd_append, block, paddedBlocks_append hb, asconPayloadBlocks_cons _ (paddedBlocks_ne_nil l),
      asconAadBytes_block hn x hb, ih (blockPos_add_block hn hb), List.length_append, hb,
      ← length_bytes64 (asconXorRate (be64List b) x).x0, List.take_length_add_append]

/-- The finalisation pads and finishes. -/
theorem asconFinal_eq (key : Block) (m : Word64) (x : AsconReg) :
    (asconFinal key m x).1 = (asconFinish key (asconXorRate (byteAt 0x80 (blockPos m)) x)).1 ∧
      (asconFinal key m x).2.toList = (asconFinish key (asconXorRate (byteAt 0x80 (blockPos m)) x)).2 :=
  ⟨rfl, toList_blockOfList _ (by simp)⟩

/-- Settles O49: by induction along the blocks. -/
theorem asconBytesEqualBlocks : Obligations.AsconBytesEqualBlocks := by
  refine ⟨fun n x l hn _ hl => asconCloseAad_padded hn x hl, asconCloseAad_zero, fun n x l key hn => ?_⟩
  obtain ⟨register, tag⟩ := asconFinal_eq key (n + BitVec.ofNat 64 l.length) (asconEncBytes n x l).1
  rw [asconPayloadBlocks_fst hn x l] at register tag
  exact ⟨asconPayloadBlocks_snd hn x l, register, tag⟩

/-! ## The whole operation -/

theorem aadEngine_ascon (n : Word64) (x : AsconReg) (a : List Byte) :
    aadEngine n (.ascon x) a = .ascon (asconAadBytes n x a) := by
  induction a generalizing n x with
  | nil => rfl
  | cons b a ih => rw [aadEngine, engAad, ih, asconAadBytes]

theorem payloadEngine_ascon (n : Word64) (x : AsconReg) (p : List Byte) :
    payloadEngine engEnc n (.ascon x) p = (.ascon (asconEncBytes n x p).1, (asconEncBytes n x p).2) := by
  induction p generalizing n x with
  | nil => rfl
  | cons b p ih => simp only [payloadEngine, engEnc, ih, asconEncBytes]

/-- The register in which the payload begins. -/
theorem aeadOpened_ascon (k n : Block) {a : List Byte} (ha : a.length < 2 ^ 64) :
    aeadOpened .ascon128 k n a = .ascon (asconOpenBlocks k.toList n.toList a) := by
  rw [aeadOpened, Engine.zero, engInit, aadEngine_ascon, engCloseAad, asconInit_eq, asconOpenBlocks]
  by_cases empty : a = []
  · subst empty; rfl
  · have counted : (0 : Word64) + BitVec.ofNat 64 a.length ≠ 0 := by
      intro h
      have := congrArg BitVec.toNat h
      rw [zero_add_word, BitVec.toNat_ofNat, Nat.mod_eq_of_lt ha] at this
      exact empty (List.eq_nil_of_length_eq_zero this)
    have padded := asconCloseAad_padded (n := 0) rfl (asconInitBlocks k.toList n.toList) counted
    rw [zero_add_word] at padded
    rw [padded, if_neg empty]

/-- Settles O57: opening, payload and finalisation by blocks. -/
theorem asconOperationIsBlocks : Obligations.AsconOperationIsBlocks := by
  intro s k n a p halg hk hn ha
  have run := execAll_aeadEncrypt hk hn a p s
  have opened := aeadOpened_ascon (blockOfList k) (blockOfList n) ha
  rw [toList_blockOfList k hk, toList_blockOfList n hn] at opened
  have payload : aeadPayload engEnc .ascon128 (blockOfList k) (blockOfList n) a p =
      (.ascon (asconEncBytes 0 (asconOpenBlocks k n a) p).1, (asconEncBytes 0 (asconOpenBlocks k n a) p).2) := by
    rw [aeadPayload, opened, payloadEngine_ascon]
  obtain ⟨cipher, register, tag⟩ := asconBytesEqualBlocks.2.2 0 (asconOpenBlocks k n a) p (blockOfList k) rfl
  rw [zero_add_word] at register tag
  rw [halg] at run
  refine ⟨_, run, ?_, ?_⟩
  · rw [State.answer_responses, aeadResponses, aeadFinal, payload]
    simp only [engFinal, cipher, tag]
    rfl
  · rw [State.answer_session]
    change (aeadFinal engEnc .ascon128 (blockOfList k) (blockOfList n) a p).1 = _
    rw [aeadFinal, payload]
    simp only [engFinal, register]
    rfl

end Sys2Proof.Machine
end
